-- ==== Sys2Proof/Word.lean ====
section
/-! DEFINITION. The widths of gochip8 CORE's values (spec/00_scope.md R5, spec/30_encoding.md R81). -/

namespace Sys2Proof

/-- A general register, a timer or a memory byte: 8 bits, unsigned (R5, R20, R28, R29). -/
abbrev Byte := BitVec 8

/-- `I`, `PC`, a return address, an instruction word: 16 bits, unsigned (R5, R25, R26, R80). -/
abbrev Word := BitVec 16

/-- A 4-bit field of an instruction word: `n`, or a nibble the decoder ignores (R81). -/
abbrev Nibble := BitVec 4

/-- A register number `x` or `y`, 0..15, every value legal (R81, R83). -/
abbrev Reg := BitVec 4

/-- The 12-bit address immediate `nnn` (R81). -/
abbrev Addr12 := BitVec 12

end Sys2Proof
end

