-- ==== Sys2Proof/Machine/Flags.lean ====
section
/-! DEFINITION. Every flag computation of gochip8 CORE: what `V[15]` becomes, 1 or 0, from the operands' old values
(spec/10_state.md R21, R22; spec/43_alu.md R114 to R118; spec/46_draw.md R125). -/

namespace Sys2Proof.Machine

/-- A flag as the byte `V[15]` holds: 1 or 0 (R119). -/
def flagByte (b : Bool) : Byte := if b then 1 else 0

/-- Add with carry: 1 if the natural sum exceeds 255 (R114). -/
def carryFlag (a b : Byte) : Byte := flagByte (decide (a.toNat + b.toNat > 255))

/-- Subtract `a - b`: 1 if no borrow occurs, `a ≥ b` (R115; R117 with the operands swapped). -/
def noBorrowFlag (a b : Byte) : Byte := flagByte (decide (a.toNat ≥ b.toNat))

/-- Shift right: the least-significant bit before the shift (R116). -/
def shiftedOutRight (a : Byte) : Byte := flagByte (a.getLsbD 0)

/-- Shift left: the most-significant bit before the shift (R118). -/
def shiftedOutLeft (a : Byte) : Byte := flagByte (a.getLsbD 7)

/-- Draw: 1 if any pixel went from set to unset (R125, decisions D9, D11, notes/assumptions/17.md). -/
def collisionFlag (collided : Bool) : Byte := flagByte collided

end Sys2Proof.Machine
end

