-- ==== Sys2Proof/Config.lean ====
section
/-! DEFINITION. The fixed sizes of gochip8 CORE (spec/00_scope.md R5) and its one free value. -/

namespace Sys2Proof

/-- `MEMSIZE`: addresses 0..4095 (R5). -/
abbrev Config.memSize : Nat := 4096

/-- `FONT_LEN`: 16 glyphs of 5 bytes from address 0 (R5). -/
abbrev Config.fontLen : Nat := 80

/-- `PROG_BASE`: where a program is loaded and where execution starts (R5). -/
abbrev Config.progBase : Nat := 512

/-- `PROG_MAX`: the longest program, 4096 - 512 bytes (R5). -/
abbrev Config.progMax : Nat := 3584

/-- `STACK_DEPTH`: entries of the call stack (R5). -/
abbrev Config.stackDepth : Nat := 16

/-- `FB_W`: pixels in a row of the framebuffer (R5). -/
abbrev Config.fbWidth : Nat := 64

/-- `FB_H`: rows of the framebuffer (R5). -/
abbrev Config.fbHeight : Nat := 32

/-- `RND` (R5, R8, R124): the random byte of the `k`-th execution of the random instruction, "any of 0..255", under no law.
FREE VALUE: no body, so nothing constrains it. DESIGN CHOICE of the form (notes/assumptions/2.md), safe: a claim must hold for
every value. -/
opaque Config.randomByte : Nat → Byte

end Sys2Proof
end

