-- ==== Sys2Proof/Machine/Font.lean ====
section
/-! DEFINITION. The spec's default for the parameter `FONT` (spec/10_state.md R30, spec/00_scope.md R5). -/

namespace Sys2Proof.Machine

/-- The default table of `FONT`, 16 glyphs of 5 bytes (R30): general knowledge (G2). PRESUMED (notes/assumptions/4.md), unsafe. A machine
configured with another table holds it in `State.font`. -/
def fontTable : List Byte :=
  [0xF0, 0x90, 0x90, 0x90, 0xF0, 0x20, 0x60, 0x20, 0x20, 0x70] ++
  [0xF0, 0x10, 0xF0, 0x80, 0xF0, 0xF0, 0x10, 0xF0, 0x10, 0xF0] ++
  [0x90, 0x90, 0xF0, 0x10, 0x10, 0xF0, 0x80, 0xF0, 0x10, 0xF0] ++
  [0xF0, 0x80, 0xF0, 0x90, 0xF0, 0xF0, 0x10, 0x20, 0x40, 0x40] ++
  [0xF0, 0x90, 0xF0, 0x90, 0xF0, 0xF0, 0x90, 0xF0, 0x10, 0xF0] ++
  [0xF0, 0x90, 0xF0, 0x90, 0x90, 0xE0, 0x90, 0xE0, 0x90, 0xE0] ++
  [0xF0, 0x80, 0x80, 0x80, 0xF0, 0xE0, 0x90, 0x90, 0x90, 0xE0] ++
  [0xF0, 0x80, 0xF0, 0x80, 0xF0, 0xF0, 0x80, 0xF0, 0x80, 0x80]

/-- The default table as a value of the parameter. -/
def defaultFont : Vector Byte Config.fontLen := Vector.ofFn fun k => fontTable.getD k.val 0

end Sys2Proof.Machine
end

