-- ==== Sys2Proof/Machine/State.lean ====
section
/-! DEFINITION. The state of gochip8 CORE as plain data (spec/10_state.md R20 to R37) and its value after reset. -/

namespace Sys2Proof.Machine

/-- The fault kinds of spec/60_exceptions.md R171, with the codes of `FaultKind.code`. -/
inductive FaultKind where
  /-- No fault recorded, code 0. -/
  | none
  /-- A program too large, raised by `loadProgram` only, code 1. -/
  | loadError
  /-- An access outside 0..4095, or a key index of 16 or more (C3), code 2. -/
  | addressError
  /-- A call at depth 16, code 3. -/
  | stackOverflow
  /-- A return at depth 0, code 4. -/
  | stackUnderflow
  /-- An unknown opcode under the strict policy, code 5. -/
  | unknownOpcode
  deriving DecidableEq, Repr

/-- `FAULT`, the record `kind, info, word` (R35). -/
structure FaultRecord where
  kind : FaultKind
  info : Word
  word : Word
  deriving DecidableEq, Repr

/-- `MEM`, listed cell by cell: addresses strictly rising, no entry equal to what an unlisted address reads as (`Memory.wf`). -/
abbrev Memory := List Host.Cell

/-- `FB`: 32 rows of 64 one-bit pixels, `FB[y][x]`, true = set (R31). -/
abbrev Framebuffer := Vector (Vector Bool 64) 32

/-- The whole state of the block: every field of R20 to R35, the configuration `STRICT`
(R36) and `FONT` (R5, R8), and the counter of the free random byte. -/
structure State where
  /-- `V[0..15]` (R20); `V[15]` is also the flag register (R21). -/
  v : Vector Byte 16
  /-- `I`, the index register (R25). -/
  i : Word
  /-- `PC`, the address of the next instruction's first byte (R23). -/
  pc : Word
  /-- `STACK[0..15]`, oldest first (R26). -/
  stack : Vector Word 16
  /-- `SP`, 0..16, the number of valid entries (R26). -/
  sp : Fin 17
  /-- `DT`, the delay timer (R28). -/
  dt : Byte
  /-- `ST`, the sound timer (R28). -/
  st : Byte
  /-- `MEM[0..4095]` (R29). -/
  mem : Memory
  /-- `FB` (R31). -/
  fb : Framebuffer
  /-- `DIRTY`, 1 = the framebuffer was drawn to since the host last cleared it (R32). -/
  dirty : Bool
  /-- `KEY[0..15]`, 1 = pressed, written by the host only (R33). -/
  key : Vector Bool 16
  /-- `WAIT`, the sticky pending state of wait for key (R34). -/
  wait : Bool
  /-- `WAITX`, the register the pending wait will write (R34). -/
  waitX : Reg
  /-- `KEYPREV[0..15]`, the key states sampled at the previous cycle while pending (R34). -/
  keyPrev : Vector Bool 16
  /-- `HALT` (R35). -/
  halt : Bool
  /-- `FAULT` (R35). -/
  fault : FaultRecord
  /-- `STRICT`, the unknown-opcode policy, constant during a run (R36). -/
  strict : Bool
  /-- `FONT`, the 80 bytes reset installs at `MEM[0..79]`, constant during a run (R5, R8, R30). -/
  font : Vector Byte Config.fontLen
  /-- How many random bytes have been consumed: the MODEL's field, the next draw is `Config.randomByte rndCount` (R124). -/
  rndCount : Nat
  deriving DecidableEq, Repr

/-- Why the model itself would stop with a fault: never. Every error of the spec is a fatal fault whose entry the spec describes
(spec/60_exceptions.md R173: HALT and FAULT are written and the host goes on), so it is a next state; nothing raises a `Fault`. DEDUCED
(notes/assumptions/6.md), safe. -/
inductive Fault where
  deriving DecidableEq, Repr

/-- Why the model gives an instruction no meaning. -/
inductive Refusal where
  /-- Raised by an arm of `exec` whose instruction has no meaning yet, named by its mnemonic: no arm does. Safe: it stops. -/
  | notModelled (mnemonic : String)
  deriving DecidableEq, Repr

/-- The state after reset (R37, R200): registers, stack, timers and framebuffer 0, `PC` = 512, memory at its reset contents (nothing
listed), `DIRTY`, `WAIT`, `WAITX`, `KEYPREV`, `HALT`, `FAULT` clear (D23, notes/assumptions/23.md). Reset leaves `KEY` alone, so its value
here is the model's: all released, DESIGN CHOICE (notes/assumptions/1.md), unsafe. `STRICT` is the spec's default, lenient (R5,
notes/assumptions/3.md), `FONT` its default table (R30, notes/assumptions/4.md); `resetState` is this state under any other
configuration. `rndCount` 0 is the model's, DESIGN CHOICE (notes/assumptions/2.md), safe: the byte it selects is free. -/
def State.reset : State where
  v := Vector.replicate 16 0
  i := 0
  pc := 512
  stack := Vector.replicate 16 0
  sp := 0
  dt := 0
  st := 0
  mem := []
  fb := Vector.replicate 32 (Vector.replicate 64 false)
  dirty := false
  key := Vector.replicate 16 false
  wait := false
  waitX := 0
  keyPrev := Vector.replicate 16 false
  halt := false
  fault := ⟨.none, 0, 0⟩
  strict := false
  font := defaultFont
  rndCount := 0

end Sys2Proof.Machine
end

