-- ==== Sys2Proof/Machine/Operands.lean ====
section
/-! DEFINITION. Every operand form of gochip8 CORE: immediates (spec/30_encoding.md R83), the effective addresses of
spec/20_memory.md R55, key indices (spec/44_key_skips.md), the random byte (R124) and the decimal digits (R132). -/

namespace Sys2Proof.Machine

/-- `nnn` where it meets a 16-bit register: zero-extended (R83). -/
def addrImm (nnn : Addr12) : Word := nnn.setWidth 16

/-- A byte where it meets a 16-bit register: zero-extended (R83). -/
def byteToWord (b : Byte) : Word := b.setWidth 16

/-- The target of jump with offset, `V[0] + nnn`, not reduced mod 4096 (R123, decision D27, notes/assumptions/27.md). -/
def offsetTarget (v0 : Byte) (nnn : Addr12) : Word := byteToWord v0 + addrImm nnn

/-- The address of glyph `v`: `v * 5`, with no masking for `v ≥ 16` (R131, decision D17, notes/assumptions/21.md). -/
def glyphAddr (v : Byte) : Word := byteToWord v * 5

/-- The one addressing mode: base plus a constant offset, a natural sum that never wraps (R55). -/
def effAddr (base : Word) (k : Nat) : Nat := base.toNat + k

/-- Whether all of a block of `len` bytes from `base` lies in 0..4095; an empty block always does (R55, R125 for `n = 0`). -/
def blockFits (base : Word) (len : Nat) : Bool := len == 0 || decide (effAddr base len ≤ Config.memSize)

/-- The lowest out-of-range address of a block that does not fit: `max(base, 4096)` (R55). -/
def firstBadAddr (base : Word) : Word := if base.toNat ≥ Config.memSize then base else 4096

/-- A key index: `V[x]` when it is 0..15 (R120, R121, C3). -/
def keyIndex (b : Byte) : Option (Fin 16) := if h : b.toNat < 16 then some ⟨b.toNat, h⟩ else none

/-- The random byte of this execution: the next free value (R124). -/
def randomDraw (s : State) : Byte := Config.randomByte s.rndCount

/-- The hundreds, tens and ones digits of a byte (R132). -/
def bcdDigits (b : Byte) : List Byte :=
  [BitVec.ofNat 8 (b.toNat / 100), BitVec.ofNat 8 (b.toNat / 10 % 10), BitVec.ofNat 8 (b.toNat % 10)]

end Sys2Proof.Machine
end

