-- ==== Sys2Proof/Machine/Ops.lean ====
section
/-! DEFINITION. The named operations over memory, registers, program counter and stack, and taking a fatal fault. -/

namespace Sys2Proof.Machine

/-! ### Memory (spec/20_memory.md) -/

/-- What an unlisted address reads as: its reset contents under the default font, that table below 80 and 0 elsewhere (R37, R59;
notes/assumptions/29.md). It is the form memory is written in; what reset puts into memory is `installFont`. -/
def Memory.unlisted (a : Nat) : Byte := fontTable.getD a 0

/-- `MEM[a]`. Every access of the machine first checks `a < 4096` (`readBlock`, `writeBlock`). -/
def Memory.read : Memory → Nat → Byte
  | [], a => Memory.unlisted a
  | (c, d) :: m, a => if a = c then d else Memory.read m a

/-- Put a cell in its place, replacing the one with its address. -/
def Memory.insertCell : Memory → Nat → Byte → Memory
  | [], a, b => [(a, b)]
  | (c, d) :: m, a, b =>
    if a < c then (a, b) :: (c, d) :: m else if a = c then (a, b) :: m else (c, d) :: Memory.insertCell m a b

/-- Take the cell of an address out, if it is listed. -/
def Memory.eraseCell : Memory → Nat → Memory
  | [], _ => []
  | (c, d) :: m, a => if a = c then m else (c, d) :: Memory.eraseCell m a

/-- `MEM[a] <- b`, keeping the canonical form: a byte equal to what an unlisted address reads as is not listed. -/
def Memory.write (m : Memory) (a : Nat) (b : Byte) : Memory :=
  if b = Memory.unlisted a then Memory.eraseCell m a else Memory.insertCell m a b

/-- The canonical form from a lower bound on: addresses strictly rising and below 4096, no entry as an unlisted address reads. -/
def Memory.wfFrom (low : Nat) : Memory → Bool
  | [] => true
  | (c, d) :: m => decide (low ≤ c) && decide (c < Config.memSize) && (d != Memory.unlisted c) && Memory.wfFrom (c + 1) m

/-- The one canonical form of a memory. -/
def Memory.wf (m : Memory) : Bool := Memory.wfFrom 0 m

/-- The bytes of `len` addresses from `a`, lowest address first. -/
def Memory.readMany (m : Memory) (a : Nat) : Nat → List Byte
  | 0 => []
  | len + 1 => Memory.read m a :: Memory.readMany m (a + 1) len

/-- Write bytes from `a` upward, in ascending address order (R58). -/
def Memory.writeMany (m : Memory) (a : Nat) : List Byte → Memory
  | [] => m
  | b :: bs => Memory.writeMany (Memory.write m a b) (a + 1) bs

/-- Memory after reset under a configured `FONT`: that table at 0..79, 0 elsewhere (R30, R37, R200). Nothing is listed where the table
agrees with the default. -/
def installFont (font : Vector Byte Config.fontLen) : Memory := Memory.writeMany [] 0 font.toList

/-- Read a block: all of it is checked first; out of range it raises AddressError with the lowest bad address (R52, R53, R55). One byte
is R52's `MemRead(addr, 1)`, two bytes are R53's fetch. -/
def readBlock (m : Memory) (base : Word) (len : Nat) : Except Word (List Byte) :=
  if blockFits base len then .ok (Memory.readMany m base.toNat len) else .error (firstBadAddr base)

/-- Write a block: all of it is checked before any byte is written (R54, R55). -/
def writeBlock (m : Memory) (base : Word) (bs : List Byte) : Except Word Memory :=
  if blockFits base bs.length then .ok (Memory.writeMany m base.toNat bs) else .error (firstBadAddr base)

/-! ### Registers (spec/10_state.md R20, R25, R28) -/

/-- `V[x]`. -/
def State.getV (s : State) (x : Reg) : Byte := s.v[x.toNat]'x.isLt

/-- `V[x] <- b`. -/
def State.setV (s : State) (x : Reg) (b : Byte) : State := { s with v := s.v.set x.toNat b x.isLt }

/-- A flag and a result, both computed from old values: `V[15] <- flag` first, `V[x] <- result` second, so that with `x = 15` the
result stays (R22, decision D8, notes/assumptions/12.md). -/
def State.setFlagThen (s : State) (x : Reg) (flag result : Byte) : State := (s.setV 15 flag).setV x result

/-- Write bytes to registers from number `j` upward. -/
def fillRegs (v : Vector Byte 16) (j : Nat) : List Byte → Vector Byte 16
  | [] => v
  | b :: bs => fillRegs (v.setIfInBounds j b) (j + 1) bs

/-- `V[0]` .. `V[x]`, `x` inclusive (R133). -/
def firstRegs (v : Vector Byte 16) (x : Reg) : List Byte := v.toList.take (x.toNat + 1)

/-- `I <- w`. -/
def State.setI (s : State) (w : Word) : State := { s with i := w }

/-- `DT <- b`. -/
def State.setDt (s : State) (b : Byte) : State := { s with dt := b }

/-- `ST <- b`. -/
def State.setSt (s : State) (b : Byte) : State := { s with st := b }

/-- The memory replaced by an updated one. -/
def State.setMem (s : State) (m : Memory) : State := { s with mem := m }

/-! ### Program counter (R23) -/

/-- `PC <- target`: the whole new value, with no further advance. -/
def State.setPc (s : State) (target : Word) : State := { s with pc := target }

/-- The normal advance, `PC <- PC + 2`. -/
def State.advance (s : State) : State := s.setPc (s.pc + 2)

/-- A skip: `PC <- PC + 4` when taken, `PC + 2` otherwise. -/
def State.skipIf (s : State) (taken : Bool) : State := s.setPc (if taken then s.pc + 4 else s.pc + 2)

/-! ### Taking a fatal fault (spec/60_exceptions.md R173) -/

/-- `raise kind(info)` in the cycle of instruction word `word`: nothing of the cycle is committed, `HALT <- 1`, `FAULT <- (kind, info,
word)`, `PC` stays at the failing instruction. The machine has no return from it (R177): only the host's `reset()` leaves the halt
(`hostReset`). -/
def takeFault (kind : FaultKind) (info word : Word) (s : State) : Host.Outcome State Fault Refusal :=
  .next { s with halt := true, fault := ⟨kind, info, word⟩ }

/-! ### The call stack (R27) -/

/-- `push(v)`: none when the stack is full (the caller raises StackOverflow). -/
def State.push (s : State) (ret : Word) : Option State :=
  if h : s.sp.val < 16 then
    some { s with stack := s.stack.set s.sp.val ret h, sp := ⟨s.sp.val + 1, Nat.succ_lt_succ h⟩ }
  else none

/-- `pop()`: the newest entry and the state without it; the entry itself keeps its value (R26, decision D30). None when the stack is
empty (the caller raises StackUnderflow). -/
def State.pop (s : State) : Option (Word × State) :=
  if h : 0 < s.sp.val then
    some (s.stack[s.sp.val - 1]'(Nat.lt_of_lt_of_le (Nat.sub_lt h Nat.one_pos) (Nat.le_of_lt_succ s.sp.isLt)),
      { s with sp := ⟨s.sp.val - 1, Nat.lt_of_le_of_lt (Nat.sub_le _ _) s.sp.isLt⟩ })
  else none

end Sys2Proof.Machine
end

