-- ==== Sys2Proof/Machine/Alu.lean ====
section
/-! DEFINITION. The ALU family (spec/43_alu.md). Operands are the register values at the start of the cycle (R22); where a flag is
produced it is written first and the result second (`State.setFlagThen`, decision D8, notes/assumptions/12.md). -/

namespace Sys2Proof.Machine

/-- `LD Vx, Vy` (R110). -/
def execLdReg (x y : Reg) (s : State) : Host.Outcome State Fault Refusal :=
  .next (s.setV x (s.getV y)).advance

/-- `OR Vx, Vy` (R111). -/
def execOr (x y : Reg) (s : State) : Host.Outcome State Fault Refusal :=
  .next (s.setV x (s.getV x ||| s.getV y)).advance

/-- `AND Vx, Vy` (R112). -/
def execAnd (x y : Reg) (s : State) : Host.Outcome State Fault Refusal :=
  .next (s.setV x (s.getV x &&& s.getV y)).advance

/-- `XOR Vx, Vy` (R113). -/
def execXor (x y : Reg) (s : State) : Host.Outcome State Fault Refusal :=
  .next (s.setV x (s.getV x ^^^ s.getV y)).advance

/-- `ADD Vx, Vy` (R114). -/
def execAddReg (x y : Reg) (s : State) : Host.Outcome State Fault Refusal :=
  .next (s.setFlagThen x (carryFlag (s.getV x) (s.getV y)) (s.getV x + s.getV y)).advance

/-- `SUB Vx, Vy` (R115). -/
def execSub (x y : Reg) (s : State) : Host.Outcome State Fault Refusal :=
  .next (s.setFlagThen x (noBorrowFlag (s.getV x) (s.getV y)) (s.getV x - s.getV y)).advance

/-- `SHR Vx` (R116): logical, by one; the word's `y` field is not used (R84). -/
def execShr (x : Reg) (_ign : Nibble) (s : State) : Host.Outcome State Fault Refusal :=
  .next (s.setFlagThen x (shiftedOutRight (s.getV x)) (s.getV x >>> 1)).advance

/-- `SUBN Vx, Vy` (R117). -/
def execSubn (x y : Reg) (s : State) : Host.Outcome State Fault Refusal :=
  .next (s.setFlagThen x (noBorrowFlag (s.getV y) (s.getV x)) (s.getV y - s.getV x)).advance

/-- `SHL Vx` (R118): by one; the word's `y` field is not used (R84). -/
def execShl (x : Reg) (_ign : Nibble) (s : State) : Host.Outcome State Fault Refusal :=
  .next (s.setFlagThen x (shiftedOutLeft (s.getV x)) (s.getV x <<< 1)).advance

end Sys2Proof.Machine
end

