-- ==== Sys2Proof/Syntax.lean ====
section
/-! DEFINITION. The 34 instructions of gochip8 CORE, one constructor per row of spec/opcode_table.json (spec/30_encoding.md R85).
Operands are the fields of R81. A nibble the decoder ignores (R84) is kept as the constructor's `ign`, so that an instruction
stands for exactly one word: FAULT.word (R35) and the round trip need it. DESIGN CHOICE (notes/assumptions/11.md), safe. -/

namespace Sys2Proof

inductive Instr where
  /-- `CLS`, `0?E0`, clear-screen (R100); `ign` is the ignored `x` field. -/
  | cls (ign : Nibble)
  /-- `RET`, `0?EE`, return (R101); `ign` is the ignored `x` field. -/
  | ret (ign : Nibble)
  /-- `JP nnn`, `1nnn`, jump (R102). -/
  | jp (nnn : Addr12)
  /-- `CALL nnn`, `2nnn`, call (R103). -/
  | call (nnn : Addr12)
  /-- `SE Vx, kk`, `3xkk`, skip if equal, immediate (R104). -/
  | seImm (x : Reg) (kk : Byte)
  /-- `SNE Vx, kk`, `4xkk`, skip if not equal, immediate (R105). -/
  | sneImm (x : Reg) (kk : Byte)
  /-- `SE Vx, Vy`, `5xy?`, skip if equal, registers (R106); `ign` is the ignored `n` field. -/
  | seReg (x y : Reg) (ign : Nibble)
  /-- `SNE Vx, Vy`, `9xy?`, skip if not equal, registers (R107); `ign` is the ignored `n` field. -/
  | sneReg (x y : Reg) (ign : Nibble)
  /-- `LD Vx, kk`, `6xkk`, load immediate (R108). -/
  | ldImm (x : Reg) (kk : Byte)
  /-- `ADD Vx, kk`, `7xkk`, add immediate (R109). -/
  | addImm (x : Reg) (kk : Byte)
  /-- `LD Vx, Vy`, `8xy0`, assign (R110). -/
  | ldReg (x y : Reg)
  /-- `OR Vx, Vy`, `8xy1` (R111). -/
  | or (x y : Reg)
  /-- `AND Vx, Vy`, `8xy2` (R112). -/
  | and (x y : Reg)
  /-- `XOR Vx, Vy`, `8xy3` (R113). -/
  | xor (x y : Reg)
  /-- `ADD Vx, Vy`, `8xy4`, add with carry (R114). -/
  | addReg (x y : Reg)
  /-- `SUB Vx, Vy`, `8xy5`, subtract with borrow (R115). -/
  | sub (x y : Reg)
  /-- `SHR Vx`, `8x?6`, shift right (R116); `ign` is the unused `y` field. -/
  | shr (x : Reg) (ign : Nibble)
  /-- `SUBN Vx, Vy`, `8xy7`, subtract reversed (R117). -/
  | subn (x y : Reg)
  /-- `SHL Vx`, `8x?E`, shift left (R118); `ign` is the unused `y` field. -/
  | shl (x : Reg) (ign : Nibble)
  /-- `SKP Vx`, `Ex9E`, skip if key pressed (R120). -/
  | skp (x : Reg)
  /-- `SKNP Vx`, `ExA1`, skip if key not pressed (R121). -/
  | sknp (x : Reg)
  /-- `LD I, nnn`, `Annn`, set I (R122). -/
  | ldI (nnn : Addr12)
  /-- `JP V0, nnn`, `Bnnn`, jump with offset (R123). -/
  | jpV0 (nnn : Addr12)
  /-- `RND Vx, kk`, `Cxkk`, random AND mask (R124). -/
  | rnd (x : Reg) (kk : Byte)
  /-- `DRW Vx, Vy, n`, `Dxyn`, draw sprite (R125). -/
  | drw (x y : Reg) (n : Nibble)
  /-- `LD Vx, DT`, `Fx07`, get delay timer (R127). -/
  | ldVxDt (x : Reg)
  /-- `LD DT, Vx`, `Fx15`, set delay timer (R128). -/
  | ldDtVx (x : Reg)
  /-- `LD ST, Vx`, `Fx18`, set sound timer (R129). -/
  | ldStVx (x : Reg)
  /-- `ADD I, Vx`, `Fx1E`, add to I (R130). -/
  | addI (x : Reg)
  /-- `LD F, Vx`, `Fx29`, set I to font glyph address (R131). -/
  | ldF (x : Reg)
  /-- `LD B, Vx`, `Fx33`, store BCD (R132). -/
  | ldB (x : Reg)
  /-- `LD [I], Vx`, `Fx55`, register dump (R133). -/
  | dump (x : Reg)
  /-- `LD Vx, [I]`, `Fx65`, register load (R134). -/
  | load (x : Reg)
  /-- `LD Vx, K`, `Fx0A`, wait for key (R135). -/
  | ldVxK (x : Reg)
  deriving DecidableEq, Repr

end Sys2Proof
end

