-- ==== Sys2Proof/Decode.lean ====
section
/-! DEFINITION. From bits to an instruction and back (spec/30_encoding.md R80 to R88). Every numeral is the spec's table R85, which the
spec itself marks as general knowledge (G1): PRESUMED (notes/assumptions/5.md), unsafe. -/

namespace Sys2Proof

/-- Why the decoder gives no instruction. -/
inductive Reject where
  /-- Fewer than two bytes: no instruction word (R80). Never met by a fetch, which reads two bytes; safe. -/
  | truncated
  /-- A word no row of R85 matches, an unknown opcode (R87); the cycle gives it the effect of R136; safe. -/
  | unknownOpcode (word : Word)
  deriving DecidableEq, Repr

/-- What the decoder answers: an instruction, or an explicit rejection (R84 "an explicit Unknown variant"). -/
inductive Decoded where
  | instr (i : Instr)
  | rejected (why : Reject)
  deriving DecidableEq, Repr

/-! ### The fields of an instruction word (R81) -/

/-- `class`, bits 15:12. -/
def fieldClass (w : Word) : Nibble := w.extractLsb' 12 4

/-- `x`, bits 11:8. -/
def fieldX (w : Word) : Reg := w.extractLsb' 8 4

/-- `y`, bits 7:4. -/
def fieldY (w : Word) : Reg := w.extractLsb' 4 4

/-- `n`, bits 3:0. -/
def fieldN (w : Word) : Nibble := w.extractLsb' 0 4

/-- `kk`, bits 7:0. -/
def fieldKK (w : Word) : Byte := w.extractLsb' 0 8

/-- `nnn`, bits 11:0. -/
def fieldNNN (w : Word) : Addr12 := w.extractLsb' 0 12

/-- Class `0x0`: secondary key `kk`; `x` takes no part (R84, decision D3, notes/assumptions/11.md). -/
def decodeClass0 (w : Word) : Decoded :=
  match (fieldKK w).toNat with
  | 0xE0 => .instr (.cls (fieldX w))
  | 0xEE => .instr (.ret (fieldX w))
  | _ => .rejected (.unknownOpcode w)

/-- Class `0x8`: secondary key `n` (R84). -/
def decodeClass8 (w : Word) : Decoded :=
  match (fieldN w).toNat with
  | 0x0 => .instr (.ldReg (fieldX w) (fieldY w))
  | 0x1 => .instr (.or (fieldX w) (fieldY w))
  | 0x2 => .instr (.and (fieldX w) (fieldY w))
  | 0x3 => .instr (.xor (fieldX w) (fieldY w))
  | 0x4 => .instr (.addReg (fieldX w) (fieldY w))
  | 0x5 => .instr (.sub (fieldX w) (fieldY w))
  | 0x6 => .instr (.shr (fieldX w) (fieldY w))
  | 0x7 => .instr (.subn (fieldX w) (fieldY w))
  | 0xE => .instr (.shl (fieldX w) (fieldY w))
  | _ => .rejected (.unknownOpcode w)

/-- Class `0xE`: secondary key `kk` (R84). -/
def decodeClassE (w : Word) : Decoded :=
  match (fieldKK w).toNat with
  | 0x9E => .instr (.skp (fieldX w))
  | 0xA1 => .instr (.sknp (fieldX w))
  | _ => .rejected (.unknownOpcode w)

/-- Class `0xF`: secondary key `kk` (R84). -/
def decodeClassF (w : Word) : Decoded :=
  match (fieldKK w).toNat with
  | 0x07 => .instr (.ldVxDt (fieldX w))
  | 0x0A => .instr (.ldVxK (fieldX w))
  | 0x15 => .instr (.ldDtVx (fieldX w))
  | 0x18 => .instr (.ldStVx (fieldX w))
  | 0x1E => .instr (.addI (fieldX w))
  | 0x29 => .instr (.ldF (fieldX w))
  | 0x33 => .instr (.ldB (fieldX w))
  | 0x55 => .instr (.dump (fieldX w))
  | 0x65 => .instr (.load (fieldX w))
  | _ => .rejected (.unknownOpcode w)

/-- The decode algorithm of R84 on one instruction word: the primary key is `class`, and classes 0, 8, E and F have a secondary key. -/
def decode (w : Word) : Decoded :=
  match (fieldClass w).toNat with
  | 0x0 => decodeClass0 w
  | 0x1 => .instr (.jp (fieldNNN w))
  | 0x2 => .instr (.call (fieldNNN w))
  | 0x3 => .instr (.seImm (fieldX w) (fieldKK w))
  | 0x4 => .instr (.sneImm (fieldX w) (fieldKK w))
  | 0x5 => .instr (.seReg (fieldX w) (fieldY w) (fieldN w))
  | 0x6 => .instr (.ldImm (fieldX w) (fieldKK w))
  | 0x7 => .instr (.addImm (fieldX w) (fieldKK w))
  | 0x8 => decodeClass8 w
  | 0x9 => .instr (.sneReg (fieldX w) (fieldY w) (fieldN w))
  | 0xA => .instr (.ldI (fieldNNN w))
  | 0xB => .instr (.jpV0 (fieldNNN w))
  | 0xC => .instr (.rnd (fieldX w) (fieldKK w))
  | 0xD => .instr (.drw (fieldX w) (fieldY w) (fieldN w))
  | 0xE => decodeClassE w
  | 0xF => decodeClassF w
  | _ => .rejected (.unknownOpcode w)

/-- Two bytes as one word: the byte at the lower address is bits 15:8 (R56, R80). -/
def wordOfBytes (hi lo : Byte) : Word := hi ++ lo

/-- The byte of a word that is stored at the lower address (R56). -/
def highByte (w : Word) : Byte := w.extractLsb' 8 8

/-- The byte of a word that is stored at the higher address (R56). -/
def lowByte (w : Word) : Byte := w.extractLsb' 0 8

/-- Decoding bytes as they lie in memory: the instruction is in the first two (R80). -/
def decodeBytes : List Byte → Decoded
  | hi :: lo :: _ => decode (wordOfBytes hi lo)
  | _ => .rejected .truncated

/-! ### The encoder, from the same table (R82, R85) -/

/-- Format `A`: class, `nnn`. -/
def formatA (c : Nibble) (nnn : Addr12) : Word := c ++ nnn

/-- Format `XK`: class, `x`, `kk`. Formats `X` and `Z` have the same places, with a sub-code for `kk`. -/
def formatXK (c : Nibble) (x : Reg) (kk : Byte) : Word := c ++ x ++ kk

/-- Format `XY`: class, `x`, `y`, low nibble. -/
def formatXY (c : Nibble) (x y : Reg) (n : Nibble) : Word := c ++ x ++ y ++ n

/-- The instruction word of an instruction (R82, R85). -/
def encode : Instr → Word
  | .cls ign => formatXK 0x0 ign 0xE0
  | .ret ign => formatXK 0x0 ign 0xEE
  | .jp nnn => formatA 0x1 nnn
  | .call nnn => formatA 0x2 nnn
  | .seImm x kk => formatXK 0x3 x kk
  | .sneImm x kk => formatXK 0x4 x kk
  | .seReg x y ign => formatXY 0x5 x y ign
  | .sneReg x y ign => formatXY 0x9 x y ign
  | .ldImm x kk => formatXK 0x6 x kk
  | .addImm x kk => formatXK 0x7 x kk
  | .ldReg x y => formatXY 0x8 x y 0x0
  | .or x y => formatXY 0x8 x y 0x1
  | .and x y => formatXY 0x8 x y 0x2
  | .xor x y => formatXY 0x8 x y 0x3
  | .addReg x y => formatXY 0x8 x y 0x4
  | .sub x y => formatXY 0x8 x y 0x5
  | .shr x ign => formatXY 0x8 x ign 0x6
  | .subn x y => formatXY 0x8 x y 0x7
  | .shl x ign => formatXY 0x8 x ign 0xE
  | .skp x => formatXK 0xE x 0x9E
  | .sknp x => formatXK 0xE x 0xA1
  | .ldI nnn => formatA 0xA nnn
  | .jpV0 nnn => formatA 0xB nnn
  | .rnd x kk => formatXK 0xC x kk
  | .drw x y n => formatXY 0xD x y n
  | .ldVxDt x => formatXK 0xF x 0x07
  | .ldDtVx x => formatXK 0xF x 0x15
  | .ldStVx x => formatXK 0xF x 0x18
  | .addI x => formatXK 0xF x 0x1E
  | .ldF x => formatXK 0xF x 0x29
  | .ldB x => formatXK 0xF x 0x33
  | .dump x => formatXK 0xF x 0x55
  | .load x => formatXK 0xF x 0x65
  | .ldVxK x => formatXK 0xF x 0x0A

/-- The two bytes of an instruction, lower address first (R56, R80). -/
def encodeBytes (i : Instr) : List Byte := [highByte (encode i), lowByte (encode i)]

/-! ### The opcode table as rows of mask and match (R85) -/

/-- A row of spec/opcode_table.json. -/
structure OpcodeRow where
  mnemonic : String
  mask : Word
  pattern : Word
  deriving DecidableEq, Repr

/-- The row of an instruction in spec/opcode_table.json, its mask and match as the table has them. -/
def Instr.row : Instr → OpcodeRow
  | .cls _ => ⟨"CLS", 0xF0FF, 0x00E0⟩
  | .ret _ => ⟨"RET", 0xF0FF, 0x00EE⟩
  | .jp _ => ⟨"JP_nnn", 0xF000, 0x1000⟩
  | .call _ => ⟨"CALL_nnn", 0xF000, 0x2000⟩
  | .seImm _ _ => ⟨"SE_Vx__kk", 0xF000, 0x3000⟩
  | .sneImm _ _ => ⟨"SNE_Vx__kk", 0xF000, 0x4000⟩
  | .seReg _ _ _ => ⟨"SE_Vx__Vy", 0xF000, 0x5000⟩
  | .sneReg _ _ _ => ⟨"SNE_Vx__Vy", 0xF000, 0x9000⟩
  | .ldImm _ _ => ⟨"LD_Vx__kk", 0xF000, 0x6000⟩
  | .addImm _ _ => ⟨"ADD_Vx__kk", 0xF000, 0x7000⟩
  | .ldReg _ _ => ⟨"LD_Vx__Vy", 0xF00F, 0x8000⟩
  | .or _ _ => ⟨"OR_Vx__Vy", 0xF00F, 0x8001⟩
  | .and _ _ => ⟨"AND_Vx__Vy", 0xF00F, 0x8002⟩
  | .xor _ _ => ⟨"XOR_Vx__Vy", 0xF00F, 0x8003⟩
  | .addReg _ _ => ⟨"ADD_Vx__Vy", 0xF00F, 0x8004⟩
  | .sub _ _ => ⟨"SUB_Vx__Vy", 0xF00F, 0x8005⟩
  | .shr _ _ => ⟨"SHR_Vx", 0xF00F, 0x8006⟩
  | .subn _ _ => ⟨"SUBN_Vx__Vy", 0xF00F, 0x8007⟩
  | .shl _ _ => ⟨"SHL_Vx", 0xF00F, 0x800E⟩
  | .skp _ => ⟨"SKP_Vx", 0xF0FF, 0xE09E⟩
  | .sknp _ => ⟨"SKNP_Vx", 0xF0FF, 0xE0A1⟩
  | .ldI _ => ⟨"LD_I__nnn", 0xF000, 0xA000⟩
  | .jpV0 _ => ⟨"JP_V0__nnn", 0xF000, 0xB000⟩
  | .rnd _ _ => ⟨"RND_Vx__kk", 0xF000, 0xC000⟩
  | .drw _ _ _ => ⟨"DRW_Vx__Vy__n", 0xF000, 0xD000⟩
  | .ldVxDt _ => ⟨"LD_Vx__DT", 0xF0FF, 0xF007⟩
  | .ldDtVx _ => ⟨"LD_DT__Vx", 0xF0FF, 0xF015⟩
  | .ldStVx _ => ⟨"LD_ST__Vx", 0xF0FF, 0xF018⟩
  | .addI _ => ⟨"ADD_I__Vx", 0xF0FF, 0xF01E⟩
  | .ldF _ => ⟨"LD_F__Vx", 0xF0FF, 0xF029⟩
  | .ldB _ => ⟨"LD_B__Vx", 0xF0FF, 0xF033⟩
  | .dump _ => ⟨"LD__I___Vx", 0xF0FF, 0xF055⟩
  | .load _ => ⟨"LD_Vx___I", 0xF0FF, 0xF065⟩
  | .ldVxK _ => ⟨"LD_Vx__K", 0xF0FF, 0xF00A⟩

/-- `(word & mask) == match`: how a row claims a word (R84). -/
def OpcodeRow.claims (r : OpcodeRow) (w : Word) : Bool := w &&& r.mask == r.pattern

/-- The 34 rows in the table's order. -/
def opcodeTable : List OpcodeRow :=
  [Instr.row (.cls 0), Instr.row (.ret 0), Instr.row (.jp 0), Instr.row (.call 0), Instr.row (.seImm 0 0),
   Instr.row (.sneImm 0 0), Instr.row (.seReg 0 0 0), Instr.row (.sneReg 0 0 0), Instr.row (.ldImm 0 0),
   Instr.row (.addImm 0 0)] ++
  [Instr.row (.ldReg 0 0), Instr.row (.or 0 0), Instr.row (.and 0 0), Instr.row (.xor 0 0), Instr.row (.addReg 0 0),
   Instr.row (.sub 0 0), Instr.row (.shr 0 0), Instr.row (.subn 0 0), Instr.row (.shl 0 0), Instr.row (.skp 0),
   Instr.row (.sknp 0)] ++
  [Instr.row (.ldI 0), Instr.row (.jpV0 0), Instr.row (.rnd 0 0), Instr.row (.drw 0 0 0), Instr.row (.ldVxDt 0),
   Instr.row (.ldDtVx 0), Instr.row (.ldStVx 0), Instr.row (.addI 0), Instr.row (.ldF 0), Instr.row (.ldB 0),
   Instr.row (.dump 0), Instr.row (.load 0), Instr.row (.ldVxK 0)]

/-- An instruction whose bits are `w`, numbered as spec/opcode_table.json numbers them (bit 0 the least significant bit of the
one word), laid out big-endian and given to the decoder. The bits above `nbits` are 0. -/
def decodeTableWord (nbits w : Nat) : Option Instr :=
  match decodeBytes [highByte (BitVec.ofNat 16 (w % 2 ^ nbits)), lowByte (BitVec.ofNat 16 (w % 2 ^ nbits))] with
  | .instr i => some i
  | .rejected _ => none

end Sys2Proof
end

