-- ==== Sys2Proof/Machine/Control.lean ====
section
/-! DEFINITION. Clear-screen, return, jump, call (spec/40_clear_return_jump_call.md). -/

namespace Sys2Proof.Machine

/-- Every pixel 0 and `DIRTY` 1 (R100). -/
def State.clearScreen (s : State) : State :=
  { s with fb := Vector.replicate 32 (Vector.replicate 64 false), dirty := true }

/-- `CLS` (R100). The word's ignored nibble has no effect (R84). -/
def execCls (_ign : Nibble) (s : State) : Host.Outcome State Fault Refusal :=
  .next s.clearScreen.advance

/-- `RET` (R101): the popped address is the whole new `PC`; StackUnderflow with info 0 when the stack is empty. -/
def execRet (ign : Nibble) (s : State) : Host.Outcome State Fault Refusal :=
  match s.pop with
  | some (ret, t) => .next (t.setPc ret)
  | none => takeFault .stackUnderflow 0 (encode (.ret ign)) s

/-- `JP nnn` (R102). -/
def execJp (nnn : Addr12) (s : State) : Host.Outcome State Fault Refusal :=
  .next (s.setPc (addrImm nnn))

/-- `CALL nnn` (R103): push `PC + 2`, jump; StackOverflow with info `PC + 2` when 16 entries are held. -/
def execCall (nnn : Addr12) (s : State) : Host.Outcome State Fault Refusal :=
  match s.push (s.pc + 2) with
  | some t => .next (t.setPc (addrImm nnn))
  | none => takeFault .stackOverflow (s.pc + 2) (encode (.call nnn)) s

end Sys2Proof.Machine
end

