-- ==== Sys2Proof/Machine/Draw.lean ====
section
/-! DEFINITION. Draw sprite (spec/46_draw.md), as the loops of R125. -/

namespace Sys2Proof.Machine

/-- The pixel `(x, y)`, `FB[y][x]` (R31). -/
def Framebuffer.pixel (fb : Framebuffer) (x : Fin 64) (y : Fin 32) : Bool := fb[y][x]

/-- `FB[y][x] <- FB[y][x] XOR b`. -/
def Framebuffer.xorPixel (fb : Framebuffer) (x : Fin 64) (y : Fin 32) (b : Bool) : Framebuffer :=
  fb.set y (fb[y].set x (xor fb[y][x] b))

/-- The sprite bit of column `col`: bit 7 is the leftmost pixel (R125, decision D10, G5, notes/assumptions/17.md). -/
def spriteBit (b : Byte) (col : Nat) : Bool := b.getLsbD (7 - col)

/-- `(vx + col) mod 64`: each pixel is wrapped on its own (R125, U3, notes/assumptions/18.md). -/
def wrapX (vx : Byte) (col : Nat) : Fin 64 := ⟨(vx.toNat + col) % 64, Nat.mod_lt _ (by decide)⟩

/-- `(vy + row) mod 32`. -/
def wrapY (vy : Byte) (row : Nat) : Fin 32 := ⟨(vy.toNat + row) % 32, Nat.mod_lt _ (by decide)⟩

/-- One pixel of a sprite: XOR, and a collision when a set pixel meets a 1 bit (R125, decision D11). The pair is the framebuffer and
whether a collision has happened. -/
def plot (acc : Framebuffer × Bool) (x : Fin 64) (y : Fin 32) (b : Bool) : Framebuffer × Bool :=
  (acc.1.xorPixel x y b, acc.2 || (b && acc.1.pixel x y))

/-- One row of a sprite: its 8 columns. -/
def drawRow (vx vy : Byte) (row : Nat) (b : Byte) (acc : Framebuffer × Bool) : Framebuffer × Bool :=
  [0, 1, 2, 3, 4, 5, 6, 7].foldl (fun acc col => plot acc (wrapX vx col) (wrapY vy row) (spriteBit b col)) acc

/-- The rows of a sprite from row number `row` on, one byte a row. -/
def drawRows (vx vy : Byte) (row : Nat) : List Byte → Framebuffer × Bool → Framebuffer × Bool
  | [], acc => acc
  | b :: bs, acc => drawRows vx vy (row + 1) bs (drawRow vx vy row b acc)

/-- The whole effect of drawing the given rows: pixels, `V[15]`, `DIRTY` (R125, decisions D9, D12). -/
def State.drawSprite (s : State) (vx vy : Byte) (rows : List Byte) : State :=
  let drawn := drawRows vx vy 0 rows (s.fb, false)
  { s.setV 15 (collisionFlag drawn.2) with fb := drawn.1, dirty := true }

/-- `DRW Vx, Vy, n` (R125): all `n` addresses are checked before any pixel changes. -/
def execDrw (x y : Reg) (n : Nibble) (s : State) : Host.Outcome State Fault Refusal :=
  match readBlock s.mem s.i n.toNat with
  | .ok rows => .next (s.drawSprite (s.getV x) (s.getV y) rows).advance
  | .error info => takeFault .addressError info (encode (.drw x y n)) s

end Sys2Proof.Machine
end

