-- ==== Sys2Proof/Machine/Immediate.lean ====
section
/-! DEFINITION. Load immediate and add immediate (spec/42_immediate.md). -/

namespace Sys2Proof.Machine

/-- `LD Vx, kk` (R108). -/
def execLdImm (x : Reg) (kk : Byte) (s : State) : Host.Outcome State Fault Refusal :=
  .next (s.setV x kk).advance

/-- `ADD Vx, kk` (R109): wrapping, no flag effect. -/
def execAddImm (x : Reg) (kk : Byte) (s : State) : Host.Outcome State Fault Refusal :=
  .next (s.setV x (s.getV x + kk)).advance

end Sys2Proof.Machine
end

