-- ==== Sys2Proof/Machine/IndexJumpRandom.lean ====
section
/-! DEFINITION. Set I, jump with offset, random (spec/45_index_jump_random.md). -/

namespace Sys2Proof.Machine

/-- `LD I, nnn` (R122). -/
def execLdI (nnn : Addr12) (s : State) : Host.Outcome State Fault Refusal :=
  .next (s.setI (addrImm nnn)).advance

/-- `JP V0, nnn` (R123): always `V[0]`. -/
def execJpV0 (nnn : Addr12) (s : State) : Host.Outcome State Fault Refusal :=
  .next (s.setPc (offsetTarget (s.getV 0) nnn))

/-- The random instruction for a given random byte `r` (R124). -/
def rndWith (r : Byte) (x : Reg) (kk : Byte) (s : State) : State := (s.setV x (r &&& kk)).advance

/-- `RND Vx, kk` (R124): the byte is the next free value, and the model's counter moves on (notes/assumptions/2.md). -/
def execRnd (x : Reg) (kk : Byte) (s : State) : Host.Outcome State Fault Refusal :=
  .next { rndWith (randomDraw s) x kk s with rndCount := s.rndCount + 1 }

end Sys2Proof.Machine
end

