-- ==== Sys2Proof/Machine/IndexMemory.lean ====
section
/-! DEFINITION. Add to I, font address, store BCD, register dump, register load (spec/48_index_memory.md). No access changes `I`
(decision D18, notes/assumptions/16.md). -/

namespace Sys2Proof.Machine

/-- `ADD I, Vx` (R130): mod 65536, no flag (decision D7, notes/assumptions/16.md). -/
def execAddI (x : Reg) (s : State) : Host.Outcome State Fault Refusal :=
  .next (s.setI (s.i + byteToWord (s.getV x))).advance

/-- `LD F, Vx` (R131). -/
def execLdF (x : Reg) (s : State) : Host.Outcome State Fault Refusal :=
  .next (s.setI (glyphAddr (s.getV x))).advance

/-- `LD B, Vx` (R132). -/
def execLdB (x : Reg) (s : State) : Host.Outcome State Fault Refusal :=
  match writeBlock s.mem s.i (bcdDigits (s.getV x)) with
  | .ok m => .next (s.setMem m).advance
  | .error info => takeFault .addressError info (encode (.ldB x)) s

/-- `LD [I], Vx` (R133): `x` is the last register's number, not a value. -/
def execDump (x : Reg) (s : State) : Host.Outcome State Fault Refusal :=
  match writeBlock s.mem s.i (firstRegs s.v x) with
  | .ok m => .next (s.setMem m).advance
  | .error info => takeFault .addressError info (encode (.dump x)) s

/-- `LD Vx, [I]` (R134). -/
def execLoad (x : Reg) (s : State) : Host.Outcome State Fault Refusal :=
  match readBlock s.mem s.i (x.toNat + 1) with
  | .ok bytes => .next { s with v := fillRegs s.v 0 bytes }.advance
  | .error info => takeFault .addressError info (encode (.load x)) s

end Sys2Proof.Machine
end

