-- ==== Sys2Proof/Machine/KeySkips.lean ====
section
/-! DEFINITION. The two key skips (spec/44_key_skips.md). A key index of 16 or more raises AddressError (C3, decision D16,
notes/assumptions/20.md). -/

namespace Sys2Proof.Machine

/-- `SKP Vx` (R120). -/
def execSkp (x : Reg) (s : State) : Host.Outcome State Fault Refusal :=
  match keyIndex (s.getV x) with
  | some k => .next (s.skipIf s.key[k])
  | none => takeFault .addressError (byteToWord (s.getV x)) (encode (.skp x)) s

/-- `SKNP Vx` (R121). -/
def execSknp (x : Reg) (s : State) : Host.Outcome State Fault Refusal :=
  match keyIndex (s.getV x) with
  | some k => .next (s.skipIf (!s.key[k]))
  | none => takeFault .addressError (byteToWord (s.getV x)) (encode (.sknp x)) s

end Sys2Proof.Machine
end

