-- ==== Sys2Proof/Machine/WaitKey.lean ====
section
/-! DEFINITION. Wait for key, entering and pending, and unknown opcodes (spec/49_wait_key_unknown.md). Edge detection by sampling
and the lowest-index choice are decision D15 (notes/assumptions/19.md). -/

namespace Sys2Proof.Machine

/-- `LD Vx, K`, the entering cycle (R135): remember the register, sample the keys, leave `PC`. -/
def execLdVxK (x : Reg) (s : State) : Host.Outcome State Fault Refusal :=
  .next { s with wait := true, waitX := x, keyPrev := s.key }

/-- The 16 key indices, lowest first. -/
def keyIndices : List (Fin 16) := [0, 1, 2, 3, 4, 5, 6, 7] ++ [8, 9, 10, 11, 12, 13, 14, 15]

/-- `NEW`: the keys that went from released to pressed between two samples, lowest first (R135). -/
def newKeys (prev now : Vector Bool 16) : List (Fin 16) := keyIndices.filter fun k => now[k] && !prev[k]

/-- `KEYPICK` (R5, R135, U5): the lowest index of the newly pressed keys, none if there is none. -/
def keyPick (pressed : List (Fin 16)) : Option (Fin 16) := pressed.head?

/-- A cycle while `WAIT = 1`: no fetch, no decode (R135). -/
def pendingStep (s : State) : Host.Outcome State Fault Refusal :=
  match keyPick (newKeys s.keyPrev s.key) with
  | none => .next { s with keyPrev := s.key }
  | some k => .next { s.setV s.waitX (BitVec.ofNat 8 k.val) with wait := false, keyPrev := s.key }.advance

/-- An unknown opcode (R136): skipped under the lenient policy, a fatal fault under the strict one. -/
def unknownOpcode (word : Word) (s : State) : Host.Outcome State Fault Refusal :=
  if s.strict then takeFault .unknownOpcode s.pc word s else .next s.advance

end Sys2Proof.Machine
end

