-- ==== Sys2Proof/Machine/Cycle.lean ====
section
/-! DEFINITION. The cycle (spec/60_exceptions.md R170, R178) and its outcome. -/

namespace Sys2Proof.Machine

/-- `MemRead(PC, 2)` (R53): the big-endian word at `PC`, at any alignment, or the address that raises AddressError. -/
def fetchWord (s : State) : Except Word Word :=
  match readBlock s.mem s.pc 2 with
  | .ok (hi :: lo :: _) => .ok (wordOfBytes hi lo)
  | .ok _ => .error (firstBadAddr s.pc)
  | .error info => .error info

/-- Run an instruction word: its instruction's meaning, or R136 for an unknown opcode. -/
def runWord (word : Word) (s : State) : Host.Outcome State Fault Refusal :=
  match decode word with
  | .instr i => exec i s
  | .rejected _ => unknownOpcode word s

/-- `cycle()` (R170), in the priority of R178: `HALT`, `WAIT`, fetch, unknown opcode, the instruction. A halted machine changes
nothing (R176, notes/assumptions/7.md); a failed fetch is a fatal fault with `word` 0 (R172). -/
def cycle (s : State) : Host.Outcome State Fault Refusal :=
  if s.halt then .next s
  else if s.wait then pendingStep s
  else
    match fetchWord s with
    | .ok word => runWord word s
    | .error info => takeFault .addressError info 0 s

/-- The outcome `cycle()` returns to the host (R170). -/
inductive CycleOutcome where
  | ok
  | waiting
  | unknown (word pc : Word)
  | fatal (kind : FaultKind) (info word : Word)
  | halted
  deriving DecidableEq, Repr

/-- The outcome of the cycle from `s` when it ends in `t`: computed, not stored (DESIGN CHOICE, notes/assumptions/8.md, safe). -/
def outcomeOf (s t : State) : CycleOutcome :=
  if s.halt then .halted
  else if t.halt then .fatal t.fault.kind t.fault.info t.fault.word
  else if t.wait then .waiting
  else if s.wait then .ok
  else
    match fetchWord s with
    | .ok word =>
      match decode word with
      | .instr _ => .ok
      | .rejected _ => .unknown word s.pc
    | .error _ => .ok

/-- The outcome of `cycle()` at `s`; the model's cycle always answers a next state. -/
def cycleOutcome (s : State) : Option CycleOutcome :=
  match cycle s with
  | .next t => some (outcomeOf s t)
  | .fault _ => none
  | .refused _ => none

end Sys2Proof.Machine
end

