-- ==== Sys2Proof/Machine/Step.lean ====
section
/-! DEFINITION. One step of the machine is one `cycle()` (spec/00_scope.md R6, spec/60_exceptions.md R170). -/

namespace Sys2Proof.Machine

/-- One step: one call of `cycle()`. -/
def step (s : State) : Host.Outcome State Fault Refusal := cycle s

/-- `s` with an instruction word placed where the next step fetches it: at `PC`, high byte first (R56). A machine that would not fetch
is made to: `HALT` and `WAIT` are cleared, and a `PC` with no two bytes of memory is put at 512. It stands for the host's
`loadProgram` (notes/assumptions/9.md). -/
def State.withFetchWord (s : State) (nbits w : Nat) : State :=
  let word : Word := BitVec.ofNat 16 (w % 2 ^ nbits)
  let pc : Word := if s.pc.toNat ≤ 4094 then s.pc else 512
  { s with
    mem := Memory.writeMany s.mem pc.toNat [highByte word, lowByte word]
    pc := pc
    halt := false
    wait := false }

end Sys2Proof.Machine
end

