-- ==== Sys2Proof/Machine/HostOps.lean ====
section
/-! DEFINITION. The operations the host performs on the block beside `cycle()` (spec/00_scope.md R6, R7; spec/60_exceptions.md R185 to
R188; spec/70_reset_and_hazards.md R200 to R203). Each is a whole operation; a run is any list of them (notes/assumptions/10.md). -/

namespace Sys2Proof.Machine

/-- The reset state of a machine configured with a `FONT` and a `STRICT` (R5, R8): `State.reset` is the one with the defaults. -/
def resetState (font : Vector Byte Config.fontLen) (strict : Bool) : State :=
  { State.reset with mem := installFont font, strict := strict, font := font }

/-- `reset()` (R200): every piece of state at its reset value under the configured `FONT` and `STRICT`, which it keeps (R8, R36), but
`KEY`, which it leaves alone (R37). The model's counter of random bytes goes on, so that bytes after a reset are fresh too
(notes/assumptions/2.md). -/
def hostReset (s : State) : State :=
  { resetState s.font s.strict with key := s.key, rndCount := s.rndCount }

/-- What `loadProgram` answers (R202). -/
inductive LoadResult where
  | ok
  | loadError
  deriving DecidableEq, Repr

/-- The info of a failed load, `min(len, 65535)` (R202). -/
def loadErrorInfo (len : Nat) : Word := BitVec.ofNat 16 (min len 65535)

/-- `loadProgram(bytes)` (R202): copies from address 512, or sets `HALT` and `FAULT` and leaves memory alone (decision D24,
notes/assumptions/24.md). -/
def loadProgram (bytes : List Byte) (s : State) : State × LoadResult :=
  if bytes.length ≤ Config.progMax then
    (s.setMem (Memory.writeMany s.mem Config.progBase bytes), .ok)
  else
    ({ s with halt := true, fault := ⟨.loadError, loadErrorInfo bytes.length, 0⟩ }, .loadError)

/-- One timer's tick: down by one, 0 stays 0 (R185, decision D13, notes/assumptions/22.md). -/
def tickDown (t : Byte) : Byte := if t.toNat > 0 then t - 1 else t

/-- `tickTimers()` (R185): both timers, whatever `HALT` and `WAIT` are (decision D14). -/
def tickTimers (s : State) : State := { s with dt := tickDown s.dt, st := tickDown s.st }

/-- `setKey(index, pressed)` (R187); the index is 4 bits wide (decision D25). -/
def setKey (index : Fin 16) (pressed : Bool) (s : State) : State := { s with key := s.key.set index pressed }

/-- `clearDirty()` (R188). -/
def clearDirty (s : State) : State := { s with dirty := false }

/-- The tone output, `ST > 0` (R186). -/
def tone (s : State) : Bool := decide (s.st.toNat > 0)

/-- The framebuffer as the host reads it: 2048 pixels, row-major (R31, R188). -/
def readFramebuffer (s : State) : List Bool := s.fb.toList.flatMap Vector.toList

/-- The numeric code of a fault kind (R171, decision D20, notes/assumptions/13.md). -/
def FaultKind.code : FaultKind → Nat
  | .none => 0
  | .loadError => 1
  | .addressError => 2
  | .stackOverflow => 3
  | .stackUnderflow => 4
  | .unknownOpcode => 5

/-- The operations that change state (R6). -/
inductive HostOp where
  | reset
  | loadProgram (bytes : List Byte)
  | cycle
  | tickTimers
  | setKey (index : Fin 16) (pressed : Bool)
  | clearDirty
  deriving DecidableEq, Repr

/-- One host operation, run to completion (R7). -/
def applyOp (op : HostOp) (s : State) : Host.Outcome State Fault Refusal :=
  match op with
  | .reset => .next (hostReset s)
  | .loadProgram bytes => .next (Sys2Proof.Machine.loadProgram bytes s).1
  | .cycle => step s
  | .tickTimers => .next (Sys2Proof.Machine.tickTimers s)
  | .setKey index pressed => .next (Sys2Proof.Machine.setKey index pressed s)
  | .clearDirty => .next (Sys2Proof.Machine.clearDirty s)

/-- A run: the host's operations one after another, in the order the host issues them (R7). -/
def runOps : List HostOp → State → Host.Outcome State Fault Refusal
  | [], s => .next s
  | op :: ops, s =>
    match applyOp op s with
    | .next t => runOps ops t
    | .fault r => .fault r
    | .refused r => .refused r

end Sys2Proof.Machine
end

