-- ==== Sys2Proof/Safety.lean ====
section
/-! DEFINITION. The terms claims use: when a cycle fetches, what a cycle leaves unchanged, what a fatal fault is, the invariant of
every state a run reaches, the parked state. Nothing here is part of the machine. -/

namespace Sys2Proof.Machine

/-! ### Fetching -/

/-- The word at `PC`, high byte first (spec/20_memory.md R53, R56). -/
def State.wordAtPc (s : State) : Word :=
  wordOfBytes (Memory.read s.mem s.pc.toNat) (Memory.read s.mem (s.pc.toNat + 1))

/-- The next cycle fetches an instruction: not halted, not waiting, two bytes at `PC` (R170, R53). -/
def State.Fetches (s : State) : Prop := s.halt = false ∧ s.wait = false ∧ s.pc.toNat ≤ 4094

/-! ### Frames -/

/-- The pieces of state beside the registers `V` and `PC`. -/
inductive Part where
  | index | stack | delayTimer | soundTimer | memory | pixels | dirty | keys | waiting | faultState | config | draws
  deriving DecidableEq, Repr

/-- A piece of state is the same in two states; memory is compared byte by byte. -/
def Part.same (s t : State) : Part → Prop
  | .index => t.i = s.i
  | .stack => t.stack = s.stack ∧ t.sp = s.sp
  | .delayTimer => t.dt = s.dt
  | .soundTimer => t.st = s.st
  | .memory => ∀ a, Memory.read t.mem a = Memory.read s.mem a
  | .pixels => ∀ x y, t.fb.pixel x y = s.fb.pixel x y
  | .dirty => t.dirty = s.dirty
  | .keys => t.key = s.key
  | .waiting => t.wait = s.wait ∧ t.waitX = s.waitX ∧ t.keyPrev = s.keyPrev
  | .faultState => t.halt = s.halt ∧ t.fault = s.fault
  | .config => t.strict = s.strict ∧ t.font = s.font
  | .draws => t.rndCount = s.rndCount

/-- From `s` to `t` nothing changes but the listed pieces, the listed registers and `PC` (whose new value a claim states beside). -/
def OnlyChanges (parts : List Part) (regs : List Reg) (s t : State) : Prop :=
  (∀ p, p ∉ parts → p.same s t) ∧ ∀ r, r ∉ regs → t.getV r = s.getV r

/-- The state after a fatal fault: the old one but for `HALT` and `FAULT` (spec/60_exceptions.md R173). -/
def State.faulted (s : State) (kind : FaultKind) (info word : Word) : State :=
  { s with halt := true, fault := ⟨kind, info, word⟩ }

/-! ### The spec's tables about every instruction -/

/-- The registers an instruction may write beside its flag use, and the flag where it produces one (spec/10_state.md R21): the `x` it names
as destination, `V[0]` to `V[x]` for register load, `V[15]` for the flag producers and draw. -/
def writtenRegs : Instr → List Reg
  | .ldImm x _ | .addImm x _ | .ldReg x _ | .or x _ | .and x _ | .xor x _ | .rnd x _ | .ldVxDt x => [x]
  | .addReg x _ | .sub x _ | .shr x _ | .subn x _ | .shl x _ => [x, 15]
  | .drw _ _ _ => [15]
  | .load x => (List.range (x.toNat + 1)).map (BitVec.ofNat 4)
  | .cls _ | .ret _ | .jp _ | .call _ | .seImm _ _ | .sneImm _ _ | .seReg _ _ _ | .sneReg _ _ _ | .skp _ | .sknp _ => []
  | .ldI _ | .jpV0 _ | .ldDtVx _ | .ldStVx _ | .addI _ | .ldF _ | .ldB _ | .dump _ | .ldVxK _ => []

/-- The pieces of state an instruction may change when it raises no fault: the framebuffer and `DIRTY` by clear-screen and draw (R31, R32),
the stack by call and return (R27), `I` by its three writers (R25), memory by store BCD and register dump (R51, C5), a timer by its set
instruction (R28), the wait state by wait for key (R34), the count of draws by the random instruction. -/
def changedParts : Instr → List Part
  | .cls _ | .drw _ _ _ => [.pixels, .dirty]
  | .ret _ | .call _ => [.stack]
  | .ldI _ | .addI _ | .ldF _ => [.index]
  | .ldB _ | .dump _ => [.memory]
  | .ldDtVx _ => [.delayTimer]
  | .ldStVx _ => [.soundTimer]
  | .ldVxK _ => [.waiting]
  | .rnd _ _ => [.draws]
  | .jp _ | .seImm _ _ | .sneImm _ _ | .seReg _ _ _ | .sneReg _ _ _ | .ldImm _ _ | .addImm _ _ | .ldReg _ _ | .or _ _ => []
  | .and _ _ | .xor _ _ | .addReg _ _ | .sub _ _ | .shr _ _ | .subn _ _ | .shl _ _ | .skp _ | .sknp _ | .jpV0 _ => []
  | .ldVxDt _ | .load _ => []

/-- Whether the key a byte names is down; a byte of 16 or more names none. -/
def State.keyDown (s : State) (b : Byte) : Bool := if h : b.toNat < 16 then s.key[b.toNat] else false

/-- `PC` after an instruction that raises no fault (spec/10_state.md R23). -/
def pcAfter (s : State) : Instr → Word
  | .ret _ => if h : 0 < s.sp.val then s.stack[s.sp.val - 1]'(by have := s.sp.isLt; omega) else s.pc
  | .jp nnn | .call nnn => BitVec.ofNat 16 nnn.toNat
  | .jpV0 nnn => BitVec.ofNat 16 ((s.getV 0).toNat + nnn.toNat)
  | .ldVxK _ => s.pc
  | .seImm x kk => if s.getV x = kk then s.pc + 4 else s.pc + 2
  | .sneImm x kk => if s.getV x ≠ kk then s.pc + 4 else s.pc + 2
  | .seReg x y _ => if s.getV x = s.getV y then s.pc + 4 else s.pc + 2
  | .sneReg x y _ => if s.getV x ≠ s.getV y then s.pc + 4 else s.pc + 2
  | .skp x => if s.keyDown (s.getV x) = true then s.pc + 4 else s.pc + 2
  | .sknp x => if s.keyDown (s.getV x) = false then s.pc + 4 else s.pc + 2
  | .cls _ | .ldImm _ _ | .addImm _ _ | .ldReg _ _ | .or _ _ | .and _ _ | .xor _ _ | .addReg _ _ | .sub _ _ => s.pc + 2
  | .shr _ _ | .subn _ _ | .shl _ _ | .ldI _ | .rnd _ _ | .drw _ _ _ | .ldVxDt _ | .ldDtVx _ | .ldStVx _ => s.pc + 2
  | .addI _ | .ldF _ | .ldB _ | .dump _ | .load _ => s.pc + 2

/-- `max(I, 4096)`, the reported address of an access out of range (spec/20_memory.md R55). -/
def State.badIndexAddr (s : State) : Word := BitVec.ofNat 16 (max s.i.toNat 4096)

/-- The table of causes (spec/60_exceptions.md R172): the fault an instruction raises in a state, with its info, if any. -/
def faultCause (s : State) : Instr → Option (FaultKind × Word)
  | .drw _ _ n => if 0 < n.toNat ∧ 4096 ≤ s.i.toNat + n.toNat - 1 then some (.addressError, s.badIndexAddr) else none
  | .ldB _ => if 4096 ≤ s.i.toNat + 2 then some (.addressError, s.badIndexAddr) else none
  | .dump x | .load x => if 4096 ≤ s.i.toNat + x.toNat then some (.addressError, s.badIndexAddr) else none
  | .skp x | .sknp x => if 16 ≤ (s.getV x).toNat then some (.addressError, BitVec.ofNat 16 (s.getV x).toNat) else none
  | .call _ => if s.sp.val = 16 then some (.stackOverflow, s.pc + 2) else none
  | .ret _ => if s.sp.val = 0 then some (.stackUnderflow, 0) else none
  | .cls _ | .jp _ | .seImm _ _ | .sneImm _ _ | .seReg _ _ _ | .sneReg _ _ _ | .ldImm _ _ | .addImm _ _ | .ldReg _ _ => none
  | .or _ _ | .and _ _ | .xor _ _ | .addReg _ _ | .sub _ _ | .shr _ _ | .subn _ _ | .shl _ _ | .ldI _ | .jpV0 _ => none
  | .rnd _ _ | .ldVxDt _ | .ldDtVx _ | .ldStVx _ | .addI _ | .ldF _ | .ldVxK _ => none

/-! ### Draw -/

/-- The `n` row bytes of a sprite, from `MEM[I]` up (spec/46_draw.md R125). -/
def State.spriteRows (s : State) (n : Nat) : List Byte := (List.range n).map fun row => Memory.read s.mem (effAddr s.i row)

/-- Whether a 1 bit of a sprite with these rows, drawn at `(vx, vy)`, lands on pixel `(x, y)`: some row and column whose target is that
pixel, both wrapped, bit 7 the leftmost (spec/46_draw.md R125). -/
def spriteCovers (vx vy : Byte) (rows : List Byte) (x : Fin 64) (y : Fin 32) : Bool :=
  (List.range rows.length).any fun row => (List.range 8).any fun col =>
    (vx.toNat + col) % 64 == x.val && (vy.toNat + row) % 32 == y.val && (rows.getD row 0).getLsbD (7 - col)

/-! ### The invariant -/

/-- What every state a run reaches from reset satisfies. -/
structure State.Inv (s : State) : Prop where
  /-- Memory is in its canonical form. -/
  memCanonical : Memory.wf s.mem = true
  /-- `PC` never exceeds what jump with offset can give (spec/10_state.md R24, spec/45_index_jump_random.md R123). -/
  pcRange : s.pc.toNat ≤ 4350
  /-- A return address is at most 4096 (spec/40_clear_return_jump_call.md R103). -/
  stackRange : ∀ k : Fin 16, s.stack[k].toNat ≤ 4096
  /-- A machine that is not halted has no fault recorded (spec/10_state.md R35). -/
  noFaultRunning : s.halt = false → s.fault = ⟨.none, 0, 0⟩
  /-- A halted machine records why (spec/10_state.md R35). -/
  faultWhenHalted : s.halt = true → s.fault.kind ≠ .none
  /-- A pending wait stands at an instruction that was fetched (spec/49_wait_key_unknown.md R135). -/
  waitRange : s.wait = true → s.pc.toNat ≤ 4094

/-- A jump to itself (spec/70_reset_and_hazards.md R213, decision D31, notes/assumptions/28.md). -/
def State.Parked (s : State) : Prop :=
  s.Fetches ∧ ∃ nnn : Addr12, nnn.toNat = s.pc.toNat ∧ s.wordAtPc = encode (.jp nnn)

end Sys2Proof.Machine
end

