-- ==== Sys2Proof/WellFormed.lean ====
section
/-! DEFINITION. The checks on an instruction as syntax. Every operand field's type admits exactly the field's values, and every
value is legal (spec/30_encoding.md R83), so the one thing left to check is what an assembler emits in the fields the decoder
ignores: 0 (R84 "the canonical words", R89). The machine decodes and runs an instruction that fails the check like the canonical
one (R84, decision D3, notes/assumptions/11.md), and no statement about running assumes the check. -/

namespace Sys2Proof

/-- "An assembler emits 0 in every ignored field" (R89): the ignored field of `CLS`, `RET`, `SE Vx, Vy`, `SNE Vx, Vy`, `SHR Vx` and
`SHL Vx` is 0; no other row has an ignored field. -/
def Instr.wellFormed : Instr → Bool
  | .cls ign => ign == 0
  | .ret ign => ign == 0
  | .jp _ => true
  | .call _ => true
  | .seImm _ _ => true
  | .sneImm _ _ => true
  | .seReg _ _ ign => ign == 0
  | .sneReg _ _ ign => ign == 0
  | .ldImm _ _ => true
  | .addImm _ _ => true
  | .ldReg _ _ => true
  | .or _ _ => true
  | .and _ _ => true
  | .xor _ _ => true
  | .addReg _ _ => true
  | .sub _ _ => true
  | .shr _ ign => ign == 0
  | .subn _ _ => true
  | .shl _ ign => ign == 0
  | .skp _ => true
  | .sknp _ => true
  | .ldI _ => true
  | .jpV0 _ => true
  | .rnd _ _ => true
  | .drw _ _ _ => true
  | .ldVxDt _ => true
  | .ldDtVx _ => true
  | .ldStVx _ => true
  | .addI _ => true
  | .ldF _ => true
  | .ldB _ => true
  | .dump _ => true
  | .load _ => true
  | .ldVxK _ => true

end Sys2Proof
end

