-- ==== Sys2Proof/Certificates/Slice0/Obligations.lean ====
section
/-! DEFINITION. The statements for the provers, in the order of the spec's files. A rule's "Encoding" line is general knowledge (G1,
notes/assumptions/5.md) and is stated once for all instructions, by the encoding statements; the statements about an instruction are about
its effect. Where a clause rests on a decision of the spec, not on its source, the docstring names the decision. -/

open Sys2Proof Sys2Proof.Machine

/-! ### Reset (spec/10_state.md section 8, spec/70_reset_and_hazards.md section 1) -/

/-- `reset()` from any state gives every piece of state the value of R37, installs the configured `FONT`, and leaves `KEY`, `STRICT` and
`FONT` as they were, for every `FONT` (R5, R30). The values of `DIRTY`, `WAIT`, `WAITX`, `KEYPREV`, `HALT`, `FAULT` and the clause on
`KEY` are decision D23 (notes/assumptions/23.md). -/
def Obligations.HostResetValues : Prop :=
  ∀ s : State,
    (∀ r, (hostReset s).getV r = 0) ∧ (hostReset s).i = 0 ∧ (hostReset s).pc = 512 ∧ (hostReset s).sp.val = 0 ∧
    (∀ k : Fin 16, (hostReset s).stack[k] = 0) ∧ (hostReset s).dt = 0 ∧ (hostReset s).st = 0 ∧
    (∀ a : Fin 80, Memory.read (hostReset s).mem a.val = s.font[a]) ∧
    (∀ a, 80 ≤ a → a < 4096 → Memory.read (hostReset s).mem a = 0) ∧
    (∀ x y, (hostReset s).fb.pixel x y = false) ∧ (hostReset s).dirty = false ∧
    (hostReset s).wait = false ∧ (hostReset s).waitX = 0 ∧ (∀ k : Fin 16, (hostReset s).keyPrev[k] = false) ∧
    (hostReset s).halt = false ∧ (hostReset s).fault = ⟨.none, 0, 0⟩ ∧
    (hostReset s).key = s.key ∧ (hostReset s).strict = s.strict ∧ (hostReset s).font = s.font

/-- `State.reset`, and the reset state of every other configuration, satisfies the invariant of every reachable state. -/
def Obligations.ResetSatisfiesInvariant : Prop :=
  State.reset.Inv ∧ ∀ (font : Vector Byte Config.fontLen) (strict : Bool), (resetState font strict).Inv

/-! ### Encoding (spec/30_encoding.md) -/

/-- Decoding the word of any instruction, canonical or not, gives the instruction back with every operand. -/
def Obligations.DecodeOfEncode : Prop := ∀ i : Instr, decode (encode i) = .instr i

/-- Every word the decoder accepts is the word of the instruction it gives: no two words decode to one instruction. -/
def Obligations.EncodeOfDecode : Prop := ∀ (w : Word) (i : Instr), decode w = .instr i → encode i = w

/-- The unknown opcodes are exactly the words of R87's table; numerals are general knowledge (G1), ignored bits decision D3. -/
def Obligations.UnknownOpcodesAreExactly : Prop :=
  ∀ w : Word, ((∃ why, decode w = .rejected why) ↔
      (w.toNat / 4096 = 0x0 ∧ w.toNat % 256 ∉ [0xE0, 0xEE]) ∨
      (w.toNat / 4096 = 0x8 ∧ w.toNat % 16 ∈ [0x8, 0x9, 0xA, 0xB, 0xC, 0xD, 0xF]) ∨
      (w.toNat / 4096 = 0xE ∧ w.toNat % 256 ∉ [0x9E, 0xA1]) ∨
      (w.toNat / 4096 = 0xF ∧ w.toNat % 256 ∉ [0x07, 0x0A, 0x15, 0x18, 0x1E, 0x29, 0x33, 0x55, 0x65])) ∧
    ∀ why, decode w = .rejected why → why = .unknownOpcode w

/-- The decoder is the table of masks and matches: a word it accepts is claimed by its instruction's row and by no other row of the
table, and a word it rejects is claimed by none (R84). -/
def Obligations.DecoderIsTheOpcodeTable : Prop :=
  ∀ w : Word,
    (∀ i, decode w = .instr i → i.row ∈ opcodeTable ∧ ∀ r ∈ opcodeTable, (r.claims w = true ↔ r = i.row)) ∧
    (∀ why, decode w = .rejected why → ∀ r ∈ opcodeTable, r.claims w = false)

/-- An instruction passes the check `wellFormed` exactly when its word has 0 in the field its row ignores (R84, R89), and what stands in
that field changes nothing in what the instruction does (for return: in what it does with a non-empty stack; the fault record holds the
word). That those fields are ignored is decision D3 (notes/assumptions/11.md). -/
def Obligations.IgnoredFieldsHaveNoEffect : Prop :=
  (∀ i : Instr, i.wellFormed = true ↔
    ((i.row.mnemonic = "CLS" ∨ i.row.mnemonic = "RET") → (encode i).toNat / 256 % 16 = 0) ∧
    ((i.row.mnemonic = "SE_Vx__Vy" ∨ i.row.mnemonic = "SNE_Vx__Vy") → (encode i).toNat % 16 = 0) ∧
    ((i.row.mnemonic = "SHR_Vx" ∨ i.row.mnemonic = "SHL_Vx") → (encode i).toNat / 16 % 16 = 0)) ∧
  ∀ (x y : Reg) (ign : Nibble) (s : State),
    exec (.cls ign) s = exec (.cls 0) s ∧ (0 < s.sp.val → exec (.ret ign) s = exec (.ret 0) s) ∧
    exec (.seReg x y ign) s = exec (.seReg x y 0) s ∧ exec (.sneReg x y ign) s = exec (.sneReg x y 0) s ∧
    exec (.shr x ign) s = exec (.shr x 0) s ∧ exec (.shl x ign) s = exec (.shl x 0) s

/-- Words written out from R85's table decode to the instructions they stand for, non-canonical ones included (R84). -/
def Obligations.WrittenOutWordsDecode : Prop :=
  decode 0x00E0 = .instr (.cls 0) ∧ decode 0x05EE = .instr (.ret 5) ∧ decode 0x1ABC = .instr (.jp 0xABC) ∧
  decode 0x2300 = .instr (.call 0x300) ∧ decode 0x3342 = .instr (.seImm 3 0x42) ∧ decode 0x4B43 = .instr (.sneImm 0xB 0x43) ∧
  decode 0x6AFF = .instr (.ldImm 0xA 0xFF) ∧ decode 0x9347 = .instr (.sneReg 3 4 7) ∧ decode 0xA123 = .instr (.ldI 0x123) ∧
  decode 0x5127 = .instr (.seReg 1 2 7) ∧
  decode 0x71FF = .instr (.addImm 1 0xFF) ∧ decode 0x8125 = .instr (.sub 1 2) ∧ decode 0x83AE = .instr (.shl 3 0xA) ∧
  decode 0xE2A1 = .instr (.sknp 2) ∧ decode 0xB300 = .instr (.jpV0 0x300) ∧ decode 0xC30F = .instr (.rnd 3 0x0F) ∧
  decode 0xD125 = .instr (.drw 1 2 5) ∧ decode 0xF518 = .instr (.ldStVx 5) ∧ decode 0xF265 = .instr (.load 2) ∧
  decode 0xF30A = .instr (.ldVxK 3) ∧ decode 0x8128 = .rejected (.unknownOpcode 0x8128)

/-! ### The cycle (spec/60_exceptions.md section 1) -/

/-- When the machine fetches and the word at `PC` decodes to an instruction, the cycle is that instruction's meaning and nothing else
around it. -/
def Obligations.StepRunsTheDecodedInstruction : Prop :=
  ∀ (s : State) (i : Instr), s.Fetches → decode s.wordAtPc = .instr i → step s = exec i s

/-- A cycle always answers a next state: there is no state in which the machine is stuck. -/
def Obligations.CycleAlwaysCompletes : Prop := ∀ s : State, ∃ t, step s = .next t

/-- A halted machine's cycle changes nothing and answers Halted (R176; the latch is decision D19). -/
def Obligations.HaltedCycleChangesNothing : Prop :=
  ∀ s : State, s.halt = true → step s = .next s ∧ cycleOutcome s = some .halted

/-- A fetch with `PC ≥ 4095` raises AddressError with the address of the first missing byte and word 0 (R53, R172; 4095 is decision D6,
the info value D20). -/
def Obligations.FetchOutOfRangeFaults : Prop :=
  ∀ s : State, s.halt = false → s.wait = false → 4095 ≤ s.pc.toNat →
    ∃ info : Word, info.toNat = (if s.pc.toNat = 4095 then 4096 else s.pc.toNat) ∧
      step s = .next (s.faulted .addressError info 0) ∧
      cycleOutcome s = some (.fatal .addressError info 0)

/-- An unknown opcode: under the strict policy a fatal fault at the word, under the lenient one only `PC` moves and the report names the
word and its address (R136). The strict clause's info is R136's own. -/
def Obligations.UnknownOpcodePolicies : Prop :=
  ∀ (s : State) (why : Reject), s.Fetches → decode s.wordAtPc = .rejected why →
    (s.strict = true →
      step s = .next (s.faulted .unknownOpcode s.pc s.wordAtPc) ∧
      cycleOutcome s = some (.fatal .unknownOpcode s.pc s.wordAtPc)) ∧
    (s.strict = false →
      ∃ t, step s = .next t ∧ t.pc = s.pc + 2 ∧ OnlyChanges [] [] s t ∧
        cycleOutcome s = some (.unknown s.wordAtPc s.pc))

/-- A cycle never changes `KEY`, the policy or `FONT`, never clears `DIRTY`, and changes a timer only by running its set instruction (R170, R28). -/
def Obligations.CycleLeavesHostStateAlone : Prop :=
  ∀ s t : State, step s = .next t →
    t.key = s.key ∧ t.strict = s.strict ∧ t.font = s.font ∧ (s.dirty = true → t.dirty = true) ∧
    (t.dt = s.dt ∨ ∃ x, s.Fetches ∧ decode s.wordAtPc = .instr (.ldDtVx x) ∧ t.dt = s.getV x) ∧
    (t.st = s.st ∨ ∃ x, s.Fetches ∧ decode s.wordAtPc = .instr (.ldStVx x) ∧ t.st = s.getV x)

/-- `PC` after a cycle that executes an instruction without a fault is the table's (R23): `PC + 2`, a taken skip `PC + 4`, the jump, call,
return and jump-with-offset targets, unchanged while waiting; unchanged after a fatal fault; `PC + 2` after a skipped unknown opcode. -/
def Obligations.ProgramCounterAfterCycle : Prop :=
  ∀ s t : State, s.Fetches → step s = .next t →
    (t.halt = true → t.pc = s.pc) ∧
    (t.halt = false → ∀ i, decode s.wordAtPc = .instr i → t.pc = pcAfter s i) ∧
    (t.halt = false → ∀ why, decode s.wordAtPc = .rejected why → t.pc = s.pc + 2)

/-! ### Clear-screen, return, jump, call (spec/40_clear_return_jump_call.md) -/

/-- Clear-screen: every pixel 0, `DIRTY` 1, nothing else (R100). -/
def Obligations.ClearScreenResult : Prop :=
  ∀ (ign : Nibble) (s : State), ∃ t, exec (.cls ign) s = .next t ∧
    (∀ x y, t.fb.pixel x y = false) ∧ t.dirty = true ∧ t.pc = s.pc + 2 ∧ OnlyChanges [.pixels, .dirty] [] s t

/-- Return: `PC` is the newest entry, one entry fewer, the others kept; with an empty stack StackUnderflow with info 0 (R101). -/
def Obligations.ReturnResult : Prop :=
  ∀ (ign : Nibble) (s : State),
    (∀ h : 0 < s.sp.val, ∃ t, exec (.ret ign) s = .next t ∧
      t.pc = s.stack[s.sp.val - 1]'(by have := s.sp.isLt; omega) ∧ t.sp.val = s.sp.val - 1 ∧
      (∀ k : Fin 16, k.val < t.sp.val → t.stack[k] = s.stack[k]) ∧ OnlyChanges [.stack] [] s t) ∧
    (s.sp.val = 0 → exec (.ret ign) s = .next (s.faulted .stackUnderflow 0 (encode (.ret ign))))

/-- Jump and set I: the 12-bit address, zero-extended, becomes the whole of `PC` or of `I` (R102, R122). -/
def Obligations.JumpAndSetIndexResults : Prop :=
  ∀ (nnn : Addr12) (s : State),
    (∃ t, exec (.jp nnn) s = .next t ∧ t.pc.toNat = nnn.toNat ∧ OnlyChanges [] [] s t) ∧
    (∃ t, exec (.ldI nnn) s = .next t ∧ t.i.toNat = nnn.toNat ∧ t.pc = s.pc + 2 ∧ OnlyChanges [.index] [] s t)

/-- Call: `PC + 2` is pushed above the entries held and `PC` is `nnn`; with 16 entries StackOverflow with info `PC + 2` (R103). -/
def Obligations.CallResult : Prop :=
  ∀ (nnn : Addr12) (s : State),
    (∀ h : s.sp.val < 16, ∃ t, exec (.call nnn) s = .next t ∧ t.pc.toNat = nnn.toNat ∧ t.sp.val = s.sp.val + 1 ∧
      t.stack[s.sp.val]'h = s.pc + 2 ∧ (∀ k : Fin 16, k.val < s.sp.val → t.stack[k] = s.stack[k]) ∧
      OnlyChanges [.stack] [] s t) ∧
    (s.sp.val = 16 → exec (.call nnn) s = .next (s.faulted .stackOverflow (s.pc + 2) (encode (.call nnn))))

/-- A return straight after a call that succeeded goes on behind the call, with the stack's depth as before (R101, R103). -/
def Obligations.ReturnUndoesCall : Prop :=
  ∀ (nnn : Addr12) (ign : Nibble) (s t u : State), s.sp.val < 16 → exec (.call nnn) s = .next t →
    u.stack = t.stack → u.sp = t.sp →
    ∃ w, exec (.ret ign) u = .next w ∧ w.pc = s.pc + 2 ∧ w.sp = s.sp ∧ OnlyChanges [.stack] [] u w

/-! ### Skips (spec/41_skips.md) -/

/-- The four register skips: `PC + 4` when the comparison holds, `PC + 2` when not, nothing else (R104 to R107). -/
def Obligations.RegisterSkipResults : Prop :=
  ∀ (x y : Reg) (kk : Byte) (ign : Nibble) (s : State),
    (∃ t, exec (.seImm x kk) s = .next t ∧ t.pc = (if s.getV x = kk then s.pc + 4 else s.pc + 2) ∧ OnlyChanges [] [] s t) ∧
    (∃ t, exec (.sneImm x kk) s = .next t ∧ t.pc = (if s.getV x ≠ kk then s.pc + 4 else s.pc + 2) ∧ OnlyChanges [] [] s t) ∧
    (∃ t, exec (.seReg x y ign) s = .next t ∧ t.pc = (if s.getV x = s.getV y then s.pc + 4 else s.pc + 2) ∧
      OnlyChanges [] [] s t) ∧
    (∃ t, exec (.sneReg x y ign) s = .next t ∧ t.pc = (if s.getV x ≠ s.getV y then s.pc + 4 else s.pc + 2) ∧
      OnlyChanges [] [] s t)

/-! ### Immediate (spec/42_immediate.md) -/

/-- Load immediate and add immediate: the register, `PC + 2`, nothing else; no flag (R108, R109). -/
def Obligations.ImmediateResults : Prop :=
  ∀ (x : Reg) (kk : Byte) (s : State),
    (∃ t, exec (.ldImm x kk) s = .next t ∧ t.getV x = kk ∧ t.pc = s.pc + 2 ∧ OnlyChanges [] [x] s t) ∧
    (∃ t, exec (.addImm x kk) s = .next t ∧ (t.getV x).toNat = ((s.getV x).toNat + kk.toNat) % 256 ∧ t.pc = s.pc + 2 ∧
      OnlyChanges [] [x] s t)

/-! ### ALU (spec/43_alu.md) -/

/-- Assign, OR, AND, XOR: every bit of the result from the same bit of the operands, `PC + 2`, no flag (R110 to R113). -/
def Obligations.LogicalResults : Prop :=
  ∀ (x y : Reg) (s : State),
    (∃ t, exec (.ldReg x y) s = .next t ∧ t.getV x = s.getV y ∧ t.pc = s.pc + 2 ∧ OnlyChanges [] [x] s t) ∧
    (∃ t, exec (.or x y) s = .next t ∧ (∀ b, (t.getV x).getLsbD b = ((s.getV x).getLsbD b || (s.getV y).getLsbD b)) ∧
      t.pc = s.pc + 2 ∧ OnlyChanges [] [x] s t) ∧
    (∃ t, exec (.and x y) s = .next t ∧ (∀ b, (t.getV x).getLsbD b = ((s.getV x).getLsbD b && (s.getV y).getLsbD b)) ∧
      t.pc = s.pc + 2 ∧ OnlyChanges [] [x] s t) ∧
    (∃ t, exec (.xor x y) s = .next t ∧ (∀ b, (t.getV x).getLsbD b = ((s.getV x).getLsbD b ^^ (s.getV y).getLsbD b)) ∧
      t.pc = s.pc + 2 ∧ OnlyChanges [] [x] s t)

/-- Add with carry, subtract, subtract reversed, for every `x` and `y`: the wrapped result in `V[x]`; when `x` is not 15 the flag in
`V[15]`; both from the old values. What happens with `x = 15` (the result stays) and that `y = 15` reads the old `V[15]` is decision D8
(notes/assumptions/12.md). -/
def Obligations.AddSubtractResults : Prop :=
  ∀ (x y : Reg) (s : State),
    (∃ t, exec (.addReg x y) s = .next t ∧
      (t.getV x).toNat = ((s.getV x).toNat + (s.getV y).toNat) % 256 ∧
      (x ≠ 15 → (t.getV 15).toNat = if (s.getV x).toNat + (s.getV y).toNat > 255 then 1 else 0) ∧
      t.pc = s.pc + 2 ∧ OnlyChanges [] [x, 15] s t) ∧
    (∃ t, exec (.sub x y) s = .next t ∧
      (t.getV x).toNat = ((s.getV x).toNat + 256 - (s.getV y).toNat) % 256 ∧
      (x ≠ 15 → (t.getV 15).toNat = if (s.getV x).toNat ≥ (s.getV y).toNat then 1 else 0) ∧
      t.pc = s.pc + 2 ∧ OnlyChanges [] [x, 15] s t) ∧
    (∃ t, exec (.subn x y) s = .next t ∧
      (t.getV x).toNat = ((s.getV y).toNat + 256 - (s.getV x).toNat) % 256 ∧
      (x ≠ 15 → (t.getV 15).toNat = if (s.getV y).toNat ≥ (s.getV x).toNat then 1 else 0) ∧
      t.pc = s.pc + 2 ∧ OnlyChanges [] [x, 15] s t)

/-- The shifts, for every `x`: half or the wrapped double in `V[x]`; when `x` is not 15 the bit shifted out in `V[15]`, from the old value.
That the result stays with `x = 15` is decision D8 (notes/assumptions/12.md). -/
def Obligations.ShiftResults : Prop :=
  ∀ (x : Reg) (ign : Nibble) (s : State),
    (∃ t, exec (.shr x ign) s = .next t ∧
      (t.getV x).toNat = (s.getV x).toNat / 2 ∧ (x ≠ 15 → (t.getV 15).toNat = (s.getV x).toNat % 2) ∧
      t.pc = s.pc + 2 ∧ OnlyChanges [] [x, 15] s t) ∧
    (∃ t, exec (.shl x ign) s = .next t ∧
      (t.getV x).toNat = (s.getV x).toNat * 2 % 256 ∧ (x ≠ 15 → (t.getV 15).toNat = (s.getV x).toNat / 128) ∧
      t.pc = s.pc + 2 ∧ OnlyChanges [] [x, 15] s t)

/-! ### Key skips (spec/44_key_skips.md) -/

/-- The key skips: for a key index 0..15 the skip by the level of that key, nothing else; for 16 or more AddressError with the index
(decision D16, notes/assumptions/20.md). -/
def Obligations.KeySkipResults : Prop :=
  ∀ (x : Reg) (s : State),
    (∀ h : (s.getV x).toNat < 16,
      (∃ t, exec (.skp x) s = .next t ∧
        t.pc = (if s.key[(s.getV x).toNat]'h = true then s.pc + 4 else s.pc + 2) ∧ OnlyChanges [] [] s t) ∧
      (∃ t, exec (.sknp x) s = .next t ∧
        t.pc = (if s.key[(s.getV x).toNat]'h = false then s.pc + 4 else s.pc + 2) ∧ OnlyChanges [] [] s t)) ∧
    (16 ≤ (s.getV x).toNat → ∃ info : Word, info.toNat = (s.getV x).toNat ∧
      exec (.skp x) s = .next (s.faulted .addressError info (encode (.skp x))) ∧
      exec (.sknp x) s = .next (s.faulted .addressError info (encode (.sknp x))))

/-! ### Jump with offset, random (spec/45_index_jump_random.md) -/

/-- Jump with offset: `PC` is the full sum `V[0] + nnn`, 0..4350, not reduced mod 4096 (decision D27, notes/assumptions/27.md). -/
def Obligations.JumpWithOffsetResult : Prop :=
  ∀ (nnn : Addr12) (s : State), ∃ t, exec (.jpV0 nnn) s = .next t ∧
    t.pc.toNat = (s.getV 0).toNat + nnn.toNat ∧ t.pc.toNat ≤ 4350 ∧ OnlyChanges [] [] s t

/-- Random: `V[x]` is the free byte of this draw AND `kk`, whatever the byte is; bits where `kk` is 0 are 0. The byte is the model's free
value (notes/assumptions/2.md): the statement holds for every value, and `rndWith` says so byte by byte. -/
def Obligations.RandomResult : Prop :=
  ∀ (x : Reg) (kk : Byte) (s : State),
    (∃ t, exec (.rnd x kk) s = .next t ∧
      (∀ b, (t.getV x).getLsbD b = ((randomDraw s).getLsbD b && kk.getLsbD b)) ∧
      (∀ b, kk.getLsbD b = false → (t.getV x).getLsbD b = false) ∧
      t.rndCount = s.rndCount + 1 ∧ t.pc = s.pc + 2 ∧ OnlyChanges [.draws] [x] s t) ∧
    (∀ r b, ((rndWith r x kk s).getV x).getLsbD b = (r.getLsbD b && kk.getLsbD b))

/-! ### Draw (spec/46_draw.md) -/

/-- Draw, when its rows are in memory: every pixel is XORed with the sprite bit that lands on it, wrapped on its own; `V[15]` is 1 exactly
when a set pixel was under a 1 bit, else 0; `DIRTY` is 1. Zero rows draw nothing and never fault. Collision, flag without collision,
bit order and zero rows are decisions D9 to D12 (notes/assumptions/17.md), wrapping S1's policy (U3). -/
def Obligations.DrawResult : Prop :=
  ∀ (x y : Reg) (n : Nibble) (s : State), (n.toNat = 0 ∨ s.i.toNat + n.toNat - 1 < 4096) →
    ∃ t, exec (.drw x y n) s = .next t ∧
      (∀ px py, t.fb.pixel px py =
        (s.fb.pixel px py ^^ spriteCovers (s.getV x) (s.getV y) (s.spriteRows n.toNat) px py)) ∧
      (t.getV 15 = 0 ∨ t.getV 15 = 1) ∧
      (t.getV 15 = 1 ↔ ∃ px py, s.fb.pixel px py = true ∧
        spriteCovers (s.getV x) (s.getV y) (s.spriteRows n.toNat) px py = true) ∧
      t.dirty = true ∧ t.pc = s.pc + 2 ∧ OnlyChanges [.pixels, .dirty] [15] s t

/-- Draw with a row outside memory raises AddressError with `max(I, 4096)` and draws nothing (R125, R55; info D20). -/
def Obligations.DrawOutOfRangeFaults : Prop :=
  ∀ (x y : Reg) (n : Nibble) (s : State), 0 < n.toNat → 4096 ≤ s.i.toNat + n.toNat - 1 →
    exec (.drw x y n) s = .next (s.faulted .addressError s.badIndexAddr (encode (.drw x y n))) ∧
    s.badIndexAddr.toNat = max s.i.toNat 4096

/-- Drawing the same sprite twice at the same position restores every pixel, and the second draw reports a collision exactly when some
sprite bit is 1 over a pixel that was 0 before the first (R126). The coordinates' registers may be `V[15]`, which the first draw writes:
the premise is that they hold the same values at the second draw. -/
def Obligations.DrawTwiceRestores : Prop :=
  ∀ (x y : Reg) (n : Nibble) (s : State), (n.toNat = 0 ∨ s.i.toNat + n.toNat - 1 < 4096) →
    ∃ t, exec (.drw x y n) s = .next t ∧
      (t.getV x = s.getV x → t.getV y = s.getV y →
        ∃ u, exec (.drw x y n) t = .next u ∧
          (∀ px py, u.fb.pixel px py = s.fb.pixel px py) ∧
          (u.getV 15 = 1 ↔ ∃ px py, s.fb.pixel px py = false ∧
            spriteCovers (s.getV x) (s.getV y) (s.spriteRows n.toNat) px py = true))

/-! ### Timers (spec/47_timers.md) -/

/-- Get delay timer: `V[x]` is `DT` (R127). -/
def Obligations.GetDelayTimerResult : Prop :=
  ∀ (x : Reg) (s : State), ∃ t, exec (.ldVxDt x) s = .next t ∧ t.getV x = s.dt ∧ t.pc = s.pc + 2 ∧ OnlyChanges [] [x] s t

/-- Set delay timer and set sound timer: the timer is `V[x]`, and the tone is on exactly when the sound timer is not 0 (R128, R129, R186).
That the operand is `V[x]` is general knowledge (G9, notes/assumptions/25.md). -/
def Obligations.SetTimerResults : Prop :=
  ∀ (x : Reg) (s : State),
    (∃ t, exec (.ldDtVx x) s = .next t ∧ t.dt = s.getV x ∧ t.pc = s.pc + 2 ∧ OnlyChanges [.delayTimer] [] s t) ∧
    (∃ t, exec (.ldStVx x) s = .next t ∧ t.st = s.getV x ∧ (tone t = true ↔ 0 < (s.getV x).toNat) ∧ t.pc = s.pc + 2 ∧
      OnlyChanges [.soundTimer] [] s t)

/-! ### Index and memory (spec/48_index_memory.md, spec/20_memory.md) -/

/-- Add to I (mod 65536, decision D7) and font address (`5 * V[x]`, for every `V[x]` by decision D17, notes/assumptions/16.md and 21.md):
`I` changes, no flag, nothing else. -/
def Obligations.IndexArithmeticResults : Prop :=
  ∀ (x : Reg) (s : State),
    (∃ t, exec (.addI x) s = .next t ∧ t.i.toNat = (s.i.toNat + (s.getV x).toNat) % 65536 ∧ t.pc = s.pc + 2 ∧
      OnlyChanges [.index] [] s t) ∧
    (∃ t, exec (.ldF x) s = .next t ∧ t.i.toNat = (s.getV x).toNat * 5 ∧ t.pc = s.pc + 2 ∧ OnlyChanges [.index] [] s t)

/-- Store BCD: the three digits at `I`, `I+1`, `I+2`, every other byte of memory as before, nothing else changed; with `I ≥ 4094`
AddressError and nothing written (R132). The premise is the memory's canonical form, which every run keeps (RunsKeepTheInvariant). -/
def Obligations.StoreBcdResult : Prop :=
  ∀ (x : Reg) (s : State), Memory.wf s.mem = true →
    (s.i.toNat + 2 < 4096 → ∃ t, exec (.ldB x) s = .next t ∧
      (Memory.read t.mem (effAddr s.i 0)).toNat = (s.getV x).toNat / 100 ∧
      (Memory.read t.mem (effAddr s.i 1)).toNat = (s.getV x).toNat / 10 % 10 ∧
      (Memory.read t.mem (effAddr s.i 2)).toNat = (s.getV x).toNat % 10 ∧
      (∀ a, (∀ k, k ≤ 2 → a ≠ effAddr s.i k) → Memory.read t.mem a = Memory.read s.mem a) ∧
      t.pc = s.pc + 2 ∧ OnlyChanges [.memory] [] s t) ∧
    (4094 ≤ s.i.toNat → exec (.ldB x) s = .next (s.faulted .addressError s.badIndexAddr (encode (.ldB x))))

/-- Register dump: `V[0]` to `V[x]`, `x` inclusive, at `I` to `I+x`, every other byte as before, `I` and all registers unchanged; out of
range AddressError and nothing written (R133). -/
def Obligations.RegisterDumpResult : Prop :=
  ∀ (x : Reg) (s : State), Memory.wf s.mem = true →
    (s.i.toNat + x.toNat < 4096 → ∃ t, exec (.dump x) s = .next t ∧
      (∀ r : Reg, r.toNat ≤ x.toNat → Memory.read t.mem (effAddr s.i r.toNat) = s.getV r) ∧
      (∀ a, (∀ k, k ≤ x.toNat → a ≠ effAddr s.i k) → Memory.read t.mem a = Memory.read s.mem a) ∧
      t.pc = s.pc + 2 ∧ OnlyChanges [.memory] [] s t) ∧
    (4096 ≤ s.i.toNat + x.toNat → exec (.dump x) s = .next (s.faulted .addressError s.badIndexAddr (encode (.dump x))))

/-- Register load: `V[0]` to `V[x]`, `x` inclusive, from `I` to `I+x`, the registers above and everything else unchanged; out of range
AddressError and no register written (R134). -/
def Obligations.RegisterLoadResult : Prop :=
  ∀ (x : Reg) (s : State),
    (s.i.toNat + x.toNat < 4096 → ∃ t, exec (.load x) s = .next t ∧
      (∀ r : Reg, r.toNat ≤ x.toNat → t.getV r = Memory.read s.mem (effAddr s.i r.toNat)) ∧
      (∀ r : Reg, x.toNat < r.toNat → t.getV r = s.getV r) ∧ (∀ p : Part, p.same s t) ∧ t.pc = s.pc + 2) ∧
    (4096 ≤ s.i.toNat + x.toNat → exec (.load x) s = .next (s.faulted .addressError s.badIndexAddr (encode (.load x))))

/-- "Register-dump followed by register-load with the same x and I round-trips V0..Vx exactly", from any state with that memory and `I`. -/
def Obligations.DumpThenLoadRoundTrips : Prop :=
  ∀ (x : Reg) (s : State), Memory.wf s.mem = true → s.i.toNat + x.toNat < 4096 →
    ∃ t, exec (.dump x) s = .next t ∧
      ∀ u : State, u.mem = t.mem → u.i = t.i →
        ∃ w, exec (.load x) u = .next w ∧ ∀ r : Reg, r.toNat ≤ x.toNat → w.getV r = s.getV r

/-- A later fetch sees the bytes a register dump stored: a cycle at the dumped address runs the word made of the first two registers, the
first in the high byte (R60, R56). -/
def Obligations.StoreIsSeenByTheNextFetch : Prop :=
  ∀ (x : Reg) (s : State), Memory.wf s.mem = true → 1 ≤ x.toNat → s.i.toNat + x.toNat < 4096 →
    ∃ t, exec (.dump x) s = .next t ∧
      ∀ u : State, u.mem = t.mem → u.pc = s.i → u.halt = false → u.wait = false →
        u.wordAtPc.toNat = (s.getV 0).toNat * 256 + (s.getV 1).toNat ∧ step u = runWord u.wordAtPc u

/-- Two canonical memories that read alike at every address are equal. The canonical form is the model's (notes/assumptions/29.md). -/
def Obligations.CanonicalMemoryIsUnique : Prop :=
  ∀ m m' : Memory, Memory.wf m = true → Memory.wf m' = true → (∀ a, Memory.read m a = Memory.read m' a) → m = m'

/-! ### Wait for key (spec/49_wait_key_unknown.md; decision D15, notes/assumptions/19.md) -/

/-- The entering cycle: pending, with the register and a sample of the keys; `PC` unchanged. -/
def Obligations.WaitForKeyEnters : Prop :=
  ∀ (x : Reg) (s : State), ∃ t, exec (.ldVxK x) s = .next t ∧
    t.wait = true ∧ t.waitX = x ∧ t.keyPrev = s.key ∧ t.pc = s.pc ∧ OnlyChanges [.waiting] [] s t

/-- A pending cycle: with no key newly pressed only the sample is renewed and the wait goes on; otherwise the lowest newly pressed key's
index goes to the remembered register, the wait ends and `PC` advances by 2. -/
def Obligations.PendingWaitResolves : Prop :=
  ∀ s : State, s.halt = false → s.wait = true →
    ((∀ k : Fin 16, ¬(s.key[k] = true ∧ s.keyPrev[k] = false)) →
      ∃ t, step s = .next t ∧ t.wait = true ∧ t.waitX = s.waitX ∧ t.keyPrev = s.key ∧ t.pc = s.pc ∧
        OnlyChanges [.waiting] [] s t ∧ cycleOutcome s = some .waiting) ∧
    (∀ k : Fin 16, s.key[k] = true → s.keyPrev[k] = false →
      (∀ j : Fin 16, j < k → ¬(s.key[j] = true ∧ s.keyPrev[j] = false)) →
      ∃ t, step s = .next t ∧ (t.getV s.waitX).toNat = k.val ∧ t.wait = false ∧ t.waitX = s.waitX ∧ t.keyPrev = s.key ∧
        t.pc = s.pc + 2 ∧ OnlyChanges [.waiting] [s.waitX] s t ∧ cycleOutcome s = some .ok)

/-- Wait for key from its entry to its end: with no key change `PC` and everything else stay through any number of cycles; when a key
that was released at the entry is pressed, the next cycle gives its index to `V[x]` and advances `PC` by exactly 2. -/
def Obligations.WaitForKeyCompletes : Prop :=
  ∀ (x : Reg) (k : Fin 16) (s : State), s.halt = false → s.key[k] = false →
    ∃ t, exec (.ldVxK x) s = .next t ∧ t.pc = s.pc ∧ (∀ n, runOps (List.replicate n .cycle) t = .next t) ∧
      ∃ u, step (setKey k true t) = .next u ∧ (u.getV x).toNat = k.val ∧ u.pc = s.pc + 2 ∧ u.wait = false ∧
        u.key = s.key.set k true ∧ OnlyChanges [.waiting, .keys] [x] s u

/-! ### Faults (spec/60_exceptions.md section 2 and 3; decisions D19, D20) -/

/-- An instruction faults exactly in the cases of the table of causes, with its kind, info and word and nothing else changed; in every
other case it completes and does not halt the machine (R172, R173). -/
def Obligations.InstructionFaultsExactlyWhen : Prop :=
  ∀ (i : Instr) (s : State), s.halt = false →
    (∀ kind info, faultCause s i = some (kind, info) → exec i s = .next (s.faulted kind info (encode i))) ∧
    (faultCause s i = none → ∃ t, exec i s = .next t ∧ t.halt = false ∧ t.fault = s.fault)

/-- A cycle that halts the machine commits nothing: the state is the old one but for `HALT` and `FAULT`, which name a real cause, and the
outcome reports the record (R173). -/
def Obligations.FatalFaultIsPrecise : Prop :=
  ∀ s t : State, step s = .next t → s.halt = false → t.halt = true →
    t = s.faulted t.fault.kind t.fault.info t.fault.word ∧ t.fault.kind ≠ .none ∧ t.fault.kind ≠ .loadError ∧
    cycleOutcome s = some (.fatal t.fault.kind t.fault.info t.fault.word)

/-- What every instruction may change, all instructions at once: registers outside its written ones (so `V[15]` outside the flag
producers, R21), and every piece of state outside its own (the stack but for call and return, the framebuffer but for clear-screen and
draw, memory but for store BCD and register dump, ...), with `HALT` and `FAULT` changed only by a fault. -/
def Obligations.EveryInstructionKeepsItsFrame : Prop :=
  ∀ (i : Instr) (s t : State), exec i s = .next t →
    (t.halt = s.halt ∧ OnlyChanges (changedParts i) (writtenRegs i) s t) ∨
    (t.halt = true ∧ t.pc = s.pc ∧ OnlyChanges [.faultState] [] s t)

/-! ### Host operations (spec/60_exceptions.md section 5, spec/70_reset_and_hazards.md) -/

/-- After `n` ticks each timer is down by `n`, not below 0, and nothing else has changed, whatever `HALT` and `WAIT` are; the tone is on
exactly when the sound timer has not reached 0 (R185, R186; the floor is decision D13, ticks while halted D14). -/
def Obligations.TicksCountTimersDown : Prop :=
  ∀ (n : Nat) (s : State), ∃ t, runOps (List.replicate n .tickTimers) s = .next t ∧
    t.dt.toNat = s.dt.toNat - n ∧ t.st.toNat = s.st.toNat - n ∧ (tone t = true ↔ n < s.st.toNat) ∧ t.pc = s.pc ∧
    OnlyChanges [.delayTimer, .soundTimer] [] s t

/-- `setKey` changes one key and nothing else, `clearDirty` clears `DIRTY` and nothing else (R187, R188; index range D25). -/
def Obligations.SetKeyAndClearDirtyResults : Prop :=
  ∀ (k : Fin 16) (b : Bool) (s : State),
    ((setKey k b s).key[k] = b ∧ (∀ j : Fin 16, j ≠ k → (setKey k b s).key[j] = s.key[j]) ∧
      (setKey k b s).pc = s.pc ∧ OnlyChanges [.keys] [] s (setKey k b s)) ∧
    ((clearDirty s).dirty = false ∧ (clearDirty s).pc = s.pc ∧ OnlyChanges [.dirty] [] s (clearDirty s))

/-- The framebuffer as the host reads it: 2048 pixels, row by row from the top, each row from `x` 0 (R31, R188). -/
def Obligations.FramebufferIsReadRowMajor : Prop :=
  ∀ s : State, (readFramebuffer s).length = 2048 ∧
    ∀ (x : Fin 64) (y : Fin 32), (readFramebuffer s)[y.val * 64 + x.val]? = some (s.fb.pixel x y)

/-- `loadProgram`: a program that fits is copied from address 512 and nothing else changes; a longer one leaves memory alone and sets
`HALT` and `FAULT` with `min(len, 65535)` (R202; decision D24, notes/assumptions/24.md). -/
def Obligations.LoadProgramResult : Prop :=
  ∀ (bytes : List Byte) (s : State), Memory.wf s.mem = true →
    (bytes.length ≤ 3584 → (loadProgram bytes s).2 = .ok ∧
      (∀ j, j < bytes.length → Memory.read (loadProgram bytes s).1.mem (512 + j) = bytes.getD j 0) ∧
      (∀ a, a < 512 ∨ 512 + bytes.length ≤ a → Memory.read (loadProgram bytes s).1.mem a = Memory.read s.mem a) ∧
      (loadProgram bytes s).1.pc = s.pc ∧ OnlyChanges [.memory] [] s (loadProgram bytes s).1) ∧
    (3584 < bytes.length → (loadProgram bytes s).2 = .loadError ∧
      ∃ info : Word, info.toNat = min bytes.length 65535 ∧ (loadProgram bytes s).1 = s.faulted .loadError info 0)

/-- The configuration is constant during a run: every list of host operations, `reset()` among them, completes and leaves `STRICT`
and `FONT` as they were (R8, R36). -/
def Obligations.ConfigurationIsConstant : Prop :=
  ∀ (ops : List HostOp) (s : State), ∃ t, runOps ops s = .next t ∧ t.strict = s.strict ∧ t.font = s.font

/-- Once halted, any list of host operations without a reset leaves the machine halted with its registers, `I`, `PC`, stack, framebuffer
and wait state as they were: only `reset()` leaves the halt (R176, R177). -/
def Obligations.OnlyResetLeavesTheHalt : Prop :=
  ∀ (ops : List HostOp) (s t : State), s.halt = true → HostOp.reset ∉ ops → runOps ops s = .next t →
    t.halt = true ∧ t.pc = s.pc ∧
    (∀ p, p ∉ [Part.memory, .delayTimer, .soundTimer, .keys, .dirty, .faultState] → p.same s t) ∧ ∀ r, t.getV r = s.getV r

/-- A parked machine stays parked: a cycle changes nothing and answers Ok, and ticks, key changes and `clearDirty` keep it parked (R213:
the definition is decision D31, a convenience for claims, notes/assumptions/28.md). -/
def Obligations.ParkedMachineStaysParked : Prop :=
  ∀ s : State, s.Parked →
    step s = .next s ∧ cycleOutcome s = some .ok ∧ (tickTimers s).Parked ∧ (clearDirty s).Parked ∧
    ∀ k b, (setKey k b s).Parked

/-! ### Invariants -/

/-- Every cycle keeps the invariant: canonical memory, `PC` at most 4350, return addresses at most 4096, `FAULT` recorded exactly while
halted, a wait only at a fetched instruction. -/
def Obligations.StepKeepsTheInvariant : Prop := ∀ s t : State, s.Inv → step s = .next t → t.Inv

/-- Every list of host operations, in any order and interleaving, completes from a state with the invariant and keeps it (R7). -/
def Obligations.RunsKeepTheInvariant : Prop := ∀ (ops : List HostOp) (s : State), s.Inv → ∃ t, runOps ops s = .next t ∧ t.Inv
end

