-- ==== Sys2Proof/Laws/Decode.lean ====
section
/-! SUPPORT. The fields of an instruction word and the formats, as arithmetic on the word's value; each format gives its fields back. -/

namespace Sys2Proof

theorem toNat_append_add {m n : Nat} (a : BitVec m) (b : BitVec n) : (a ++ b).toNat = a.toNat * 2 ^ n + b.toNat := by
  rw [BitVec.toNat_append, ← Nat.shiftLeft_add_eq_or_of_lt b.isLt, Nat.shiftLeft_eq]

/-! ### Values -/

theorem toNat_formatA (c : Nibble) (nnn : Addr12) : (formatA c nnn).toNat = c.toNat * 4096 + nnn.toNat :=
  toNat_append_add c nnn

theorem toNat_formatXK (c : Nibble) (x : Reg) (kk : Byte) :
    (formatXK c x kk).toNat = c.toNat * 4096 + x.toNat * 256 + kk.toNat := by
  have h : (formatXK c x kk).toNat = (c ++ x).toNat * 2 ^ 8 + kk.toNat := toNat_append_add (c ++ x) kk
  rw [h, toNat_append_add]; omega

theorem toNat_formatXY (c : Nibble) (x y : Reg) (n : Nibble) :
    (formatXY c x y n).toNat = c.toNat * 4096 + x.toNat * 256 + y.toNat * 16 + n.toNat := by
  have h : (formatXY c x y n).toNat = (c ++ x ++ y).toNat * 2 ^ 4 + n.toNat := toNat_append_add (c ++ x ++ y) n
  rw [h, toNat_append_add, toNat_append_add]; omega

theorem toNat_wordOfBytes (hi lo : Byte) : (wordOfBytes hi lo).toNat = hi.toNat * 256 + lo.toNat := toNat_append_add hi lo

theorem toNat_fieldClass (w : Word) : (fieldClass w).toNat = w.toNat / 4096 % 16 := by
  simp only [fieldClass, BitVec.extractLsb'_toNat, Nat.shiftRight_eq_div_pow]

theorem toNat_fieldX (w : Word) : (fieldX w).toNat = w.toNat / 256 % 16 := by
  simp only [fieldX, BitVec.extractLsb'_toNat, Nat.shiftRight_eq_div_pow]

theorem toNat_fieldY (w : Word) : (fieldY w).toNat = w.toNat / 16 % 16 := by
  simp only [fieldY, BitVec.extractLsb'_toNat, Nat.shiftRight_eq_div_pow]

theorem toNat_fieldN (w : Word) : (fieldN w).toNat = w.toNat % 16 := by
  simp only [fieldN, BitVec.extractLsb'_toNat, Nat.shiftRight_zero]

theorem toNat_fieldKK (w : Word) : (fieldKK w).toNat = w.toNat % 256 := by
  simp only [fieldKK, BitVec.extractLsb'_toNat, Nat.shiftRight_zero]

theorem toNat_fieldNNN (w : Word) : (fieldNNN w).toNat = w.toNat % 4096 := by
  simp only [fieldNNN, BitVec.extractLsb'_toNat, Nat.shiftRight_zero]

theorem toNat_highByte (w : Word) : (highByte w).toNat = w.toNat / 256 % 256 := by
  simp only [highByte, BitVec.extractLsb'_toNat, Nat.shiftRight_eq_div_pow]

theorem toNat_lowByte (w : Word) : (lowByte w).toNat = w.toNat % 256 := by
  simp only [lowByte, BitVec.extractLsb'_toNat, Nat.shiftRight_zero]

/-! ### A format's fields -/

section
variable (c : Nibble) (x y : Reg) (n : Nibble) (kk : Byte) (nnn : Addr12)

@[simp] theorem fieldClass_formatA : fieldClass (formatA c nnn) = c := by
  apply BitVec.eq_of_toNat_eq; rw [toNat_fieldClass, toNat_formatA]; omega

@[simp] theorem fieldNNN_formatA : fieldNNN (formatA c nnn) = nnn := by
  apply BitVec.eq_of_toNat_eq; rw [toNat_fieldNNN, toNat_formatA]; omega

@[simp] theorem fieldClass_formatXK : fieldClass (formatXK c x kk) = c := by
  apply BitVec.eq_of_toNat_eq; rw [toNat_fieldClass, toNat_formatXK]; omega

@[simp] theorem fieldX_formatXK : fieldX (formatXK c x kk) = x := by
  apply BitVec.eq_of_toNat_eq; rw [toNat_fieldX, toNat_formatXK]; omega

@[simp] theorem fieldKK_formatXK : fieldKK (formatXK c x kk) = kk := by
  apply BitVec.eq_of_toNat_eq; rw [toNat_fieldKK, toNat_formatXK]; omega

@[simp] theorem fieldClass_formatXY : fieldClass (formatXY c x y n) = c := by
  apply BitVec.eq_of_toNat_eq; rw [toNat_fieldClass, toNat_formatXY]; omega

@[simp] theorem fieldX_formatXY : fieldX (formatXY c x y n) = x := by
  apply BitVec.eq_of_toNat_eq; rw [toNat_fieldX, toNat_formatXY]; omega

@[simp] theorem fieldY_formatXY : fieldY (formatXY c x y n) = y := by
  apply BitVec.eq_of_toNat_eq; rw [toNat_fieldY, toNat_formatXY]; omega

@[simp] theorem fieldN_formatXY : fieldN (formatXY c x y n) = n := by
  apply BitVec.eq_of_toNat_eq; rw [toNat_fieldN, toNat_formatXY]; omega

end

/-! ### A word from its fields -/

theorem formatA_fields (w : Word) : formatA (fieldClass w) (fieldNNN w) = w := by
  apply BitVec.eq_of_toNat_eq; rw [toNat_formatA, toNat_fieldClass, toNat_fieldNNN]; omega

theorem formatXK_fields (w : Word) : formatXK (fieldClass w) (fieldX w) (fieldKK w) = w := by
  apply BitVec.eq_of_toNat_eq; rw [toNat_formatXK, toNat_fieldClass, toNat_fieldX, toNat_fieldKK]; omega

theorem formatXY_fields (w : Word) : formatXY (fieldClass w) (fieldX w) (fieldY w) (fieldN w) = w := by
  apply BitVec.eq_of_toNat_eq
  rw [toNat_formatXY, toNat_fieldClass, toNat_fieldX, toNat_fieldY, toNat_fieldN]; omega

/-- The two bytes of a word, put together again, are the word. -/
theorem wordOfBytes_highByte_lowByte (w : Word) : wordOfBytes (highByte w) (lowByte w) = w := by
  apply BitVec.eq_of_toNat_eq; rw [toNat_wordOfBytes, toNat_highByte, toNat_lowByte]; omega

/-! ### Masks, nibble by nibble -/

theorem and_formatA (c c' : Nibble) (a a' : Addr12) : formatA c a &&& formatA c' a' = formatA (c &&& c') (a &&& a') :=
  BitVec.and_append

theorem and_formatXK (c c' : Nibble) (x x' : Reg) (k k' : Byte) :
    formatXK c x k &&& formatXK c' x' k' = formatXK (c &&& c') (x &&& x') (k &&& k') := by
  have h : formatXK c x k &&& formatXK c' x' k' = ((c ++ x) &&& (c' ++ x')) ++ (k &&& k') := BitVec.and_append
  rw [h, BitVec.and_append]; rfl

theorem and_formatXY (c c' : Nibble) (x x' y y' : Reg) (n n' : Nibble) :
    formatXY c x y n &&& formatXY c' x' y' n' = formatXY (c &&& c') (x &&& x') (y &&& y') (n &&& n') := by
  have h : formatXY c x y n &&& formatXY c' x' y' n' = ((c ++ x ++ y) &&& (c' ++ x' ++ y')) ++ (n &&& n') := BitVec.and_append
  rw [h, BitVec.and_append, BitVec.and_append]; rfl

end Sys2Proof
end

