-- ==== Sys2Proof/Laws/State.lean ====
section
/-! SUPPORT. One lemma per field per update of State, each true by `rfl`, so that no later proof unfolds a record update. -/

namespace Sys2Proof.Machine

/-! ### `State.setV` -/

@[simp] theorem State.setV_v (s : State) (x : Reg) (b : Byte) : (s.setV x b).v = s.v.set x.toNat b x.isLt := rfl
@[simp] theorem State.setV_i (s : State) (x : Reg) (b : Byte) : (s.setV x b).i = s.i := rfl
@[simp] theorem State.setV_pc (s : State) (x : Reg) (b : Byte) : (s.setV x b).pc = s.pc := rfl
@[simp] theorem State.setV_stack (s : State) (x : Reg) (b : Byte) : (s.setV x b).stack = s.stack := rfl
@[simp] theorem State.setV_sp (s : State) (x : Reg) (b : Byte) : (s.setV x b).sp = s.sp := rfl
@[simp] theorem State.setV_dt (s : State) (x : Reg) (b : Byte) : (s.setV x b).dt = s.dt := rfl
@[simp] theorem State.setV_st (s : State) (x : Reg) (b : Byte) : (s.setV x b).st = s.st := rfl
@[simp] theorem State.setV_mem (s : State) (x : Reg) (b : Byte) : (s.setV x b).mem = s.mem := rfl
@[simp] theorem State.setV_fb (s : State) (x : Reg) (b : Byte) : (s.setV x b).fb = s.fb := rfl
@[simp] theorem State.setV_dirty (s : State) (x : Reg) (b : Byte) : (s.setV x b).dirty = s.dirty := rfl
@[simp] theorem State.setV_key (s : State) (x : Reg) (b : Byte) : (s.setV x b).key = s.key := rfl
@[simp] theorem State.setV_wait (s : State) (x : Reg) (b : Byte) : (s.setV x b).wait = s.wait := rfl
@[simp] theorem State.setV_waitX (s : State) (x : Reg) (b : Byte) : (s.setV x b).waitX = s.waitX := rfl
@[simp] theorem State.setV_keyPrev (s : State) (x : Reg) (b : Byte) : (s.setV x b).keyPrev = s.keyPrev := rfl
@[simp] theorem State.setV_halt (s : State) (x : Reg) (b : Byte) : (s.setV x b).halt = s.halt := rfl
@[simp] theorem State.setV_fault (s : State) (x : Reg) (b : Byte) : (s.setV x b).fault = s.fault := rfl
@[simp] theorem State.setV_strict (s : State) (x : Reg) (b : Byte) : (s.setV x b).strict = s.strict := rfl
@[simp] theorem State.setV_font (s : State) (x : Reg) (b : Byte) : (s.setV x b).font = s.font := rfl
@[simp] theorem State.setV_rndCount (s : State) (x : Reg) (b : Byte) : (s.setV x b).rndCount = s.rndCount := rfl

/-! ### `State.setI` -/

@[simp] theorem State.setI_v (s : State) (w : Word) : (s.setI w).v = s.v := rfl
@[simp] theorem State.setI_i (s : State) (w : Word) : (s.setI w).i = w := rfl
@[simp] theorem State.setI_pc (s : State) (w : Word) : (s.setI w).pc = s.pc := rfl
@[simp] theorem State.setI_stack (s : State) (w : Word) : (s.setI w).stack = s.stack := rfl
@[simp] theorem State.setI_sp (s : State) (w : Word) : (s.setI w).sp = s.sp := rfl
@[simp] theorem State.setI_dt (s : State) (w : Word) : (s.setI w).dt = s.dt := rfl
@[simp] theorem State.setI_st (s : State) (w : Word) : (s.setI w).st = s.st := rfl
@[simp] theorem State.setI_mem (s : State) (w : Word) : (s.setI w).mem = s.mem := rfl
@[simp] theorem State.setI_fb (s : State) (w : Word) : (s.setI w).fb = s.fb := rfl
@[simp] theorem State.setI_dirty (s : State) (w : Word) : (s.setI w).dirty = s.dirty := rfl
@[simp] theorem State.setI_key (s : State) (w : Word) : (s.setI w).key = s.key := rfl
@[simp] theorem State.setI_wait (s : State) (w : Word) : (s.setI w).wait = s.wait := rfl
@[simp] theorem State.setI_waitX (s : State) (w : Word) : (s.setI w).waitX = s.waitX := rfl
@[simp] theorem State.setI_keyPrev (s : State) (w : Word) : (s.setI w).keyPrev = s.keyPrev := rfl
@[simp] theorem State.setI_halt (s : State) (w : Word) : (s.setI w).halt = s.halt := rfl
@[simp] theorem State.setI_fault (s : State) (w : Word) : (s.setI w).fault = s.fault := rfl
@[simp] theorem State.setI_strict (s : State) (w : Word) : (s.setI w).strict = s.strict := rfl
@[simp] theorem State.setI_font (s : State) (w : Word) : (s.setI w).font = s.font := rfl
@[simp] theorem State.setI_rndCount (s : State) (w : Word) : (s.setI w).rndCount = s.rndCount := rfl

/-! ### `State.setDt` -/

@[simp] theorem State.setDt_v (s : State) (b : Byte) : (s.setDt b).v = s.v := rfl
@[simp] theorem State.setDt_i (s : State) (b : Byte) : (s.setDt b).i = s.i := rfl
@[simp] theorem State.setDt_pc (s : State) (b : Byte) : (s.setDt b).pc = s.pc := rfl
@[simp] theorem State.setDt_stack (s : State) (b : Byte) : (s.setDt b).stack = s.stack := rfl
@[simp] theorem State.setDt_sp (s : State) (b : Byte) : (s.setDt b).sp = s.sp := rfl
@[simp] theorem State.setDt_dt (s : State) (b : Byte) : (s.setDt b).dt = b := rfl
@[simp] theorem State.setDt_st (s : State) (b : Byte) : (s.setDt b).st = s.st := rfl
@[simp] theorem State.setDt_mem (s : State) (b : Byte) : (s.setDt b).mem = s.mem := rfl
@[simp] theorem State.setDt_fb (s : State) (b : Byte) : (s.setDt b).fb = s.fb := rfl
@[simp] theorem State.setDt_dirty (s : State) (b : Byte) : (s.setDt b).dirty = s.dirty := rfl
@[simp] theorem State.setDt_key (s : State) (b : Byte) : (s.setDt b).key = s.key := rfl
@[simp] theorem State.setDt_wait (s : State) (b : Byte) : (s.setDt b).wait = s.wait := rfl
@[simp] theorem State.setDt_waitX (s : State) (b : Byte) : (s.setDt b).waitX = s.waitX := rfl
@[simp] theorem State.setDt_keyPrev (s : State) (b : Byte) : (s.setDt b).keyPrev = s.keyPrev := rfl
@[simp] theorem State.setDt_halt (s : State) (b : Byte) : (s.setDt b).halt = s.halt := rfl
@[simp] theorem State.setDt_fault (s : State) (b : Byte) : (s.setDt b).fault = s.fault := rfl
@[simp] theorem State.setDt_strict (s : State) (b : Byte) : (s.setDt b).strict = s.strict := rfl
@[simp] theorem State.setDt_font (s : State) (b : Byte) : (s.setDt b).font = s.font := rfl
@[simp] theorem State.setDt_rndCount (s : State) (b : Byte) : (s.setDt b).rndCount = s.rndCount := rfl

/-! ### `State.setSt` -/

@[simp] theorem State.setSt_v (s : State) (b : Byte) : (s.setSt b).v = s.v := rfl
@[simp] theorem State.setSt_i (s : State) (b : Byte) : (s.setSt b).i = s.i := rfl
@[simp] theorem State.setSt_pc (s : State) (b : Byte) : (s.setSt b).pc = s.pc := rfl
@[simp] theorem State.setSt_stack (s : State) (b : Byte) : (s.setSt b).stack = s.stack := rfl
@[simp] theorem State.setSt_sp (s : State) (b : Byte) : (s.setSt b).sp = s.sp := rfl
@[simp] theorem State.setSt_dt (s : State) (b : Byte) : (s.setSt b).dt = s.dt := rfl
@[simp] theorem State.setSt_st (s : State) (b : Byte) : (s.setSt b).st = b := rfl
@[simp] theorem State.setSt_mem (s : State) (b : Byte) : (s.setSt b).mem = s.mem := rfl
@[simp] theorem State.setSt_fb (s : State) (b : Byte) : (s.setSt b).fb = s.fb := rfl
@[simp] theorem State.setSt_dirty (s : State) (b : Byte) : (s.setSt b).dirty = s.dirty := rfl
@[simp] theorem State.setSt_key (s : State) (b : Byte) : (s.setSt b).key = s.key := rfl
@[simp] theorem State.setSt_wait (s : State) (b : Byte) : (s.setSt b).wait = s.wait := rfl
@[simp] theorem State.setSt_waitX (s : State) (b : Byte) : (s.setSt b).waitX = s.waitX := rfl
@[simp] theorem State.setSt_keyPrev (s : State) (b : Byte) : (s.setSt b).keyPrev = s.keyPrev := rfl
@[simp] theorem State.setSt_halt (s : State) (b : Byte) : (s.setSt b).halt = s.halt := rfl
@[simp] theorem State.setSt_fault (s : State) (b : Byte) : (s.setSt b).fault = s.fault := rfl
@[simp] theorem State.setSt_strict (s : State) (b : Byte) : (s.setSt b).strict = s.strict := rfl
@[simp] theorem State.setSt_font (s : State) (b : Byte) : (s.setSt b).font = s.font := rfl
@[simp] theorem State.setSt_rndCount (s : State) (b : Byte) : (s.setSt b).rndCount = s.rndCount := rfl

/-! ### `State.setMem` -/

@[simp] theorem State.setMem_v (s : State) (m : Memory) : (s.setMem m).v = s.v := rfl
@[simp] theorem State.setMem_i (s : State) (m : Memory) : (s.setMem m).i = s.i := rfl
@[simp] theorem State.setMem_pc (s : State) (m : Memory) : (s.setMem m).pc = s.pc := rfl
@[simp] theorem State.setMem_stack (s : State) (m : Memory) : (s.setMem m).stack = s.stack := rfl
@[simp] theorem State.setMem_sp (s : State) (m : Memory) : (s.setMem m).sp = s.sp := rfl
@[simp] theorem State.setMem_dt (s : State) (m : Memory) : (s.setMem m).dt = s.dt := rfl
@[simp] theorem State.setMem_st (s : State) (m : Memory) : (s.setMem m).st = s.st := rfl
@[simp] theorem State.setMem_mem (s : State) (m : Memory) : (s.setMem m).mem = m := rfl
@[simp] theorem State.setMem_fb (s : State) (m : Memory) : (s.setMem m).fb = s.fb := rfl
@[simp] theorem State.setMem_dirty (s : State) (m : Memory) : (s.setMem m).dirty = s.dirty := rfl
@[simp] theorem State.setMem_key (s : State) (m : Memory) : (s.setMem m).key = s.key := rfl
@[simp] theorem State.setMem_wait (s : State) (m : Memory) : (s.setMem m).wait = s.wait := rfl
@[simp] theorem State.setMem_waitX (s : State) (m : Memory) : (s.setMem m).waitX = s.waitX := rfl
@[simp] theorem State.setMem_keyPrev (s : State) (m : Memory) : (s.setMem m).keyPrev = s.keyPrev := rfl
@[simp] theorem State.setMem_halt (s : State) (m : Memory) : (s.setMem m).halt = s.halt := rfl
@[simp] theorem State.setMem_fault (s : State) (m : Memory) : (s.setMem m).fault = s.fault := rfl
@[simp] theorem State.setMem_strict (s : State) (m : Memory) : (s.setMem m).strict = s.strict := rfl
@[simp] theorem State.setMem_font (s : State) (m : Memory) : (s.setMem m).font = s.font := rfl
@[simp] theorem State.setMem_rndCount (s : State) (m : Memory) : (s.setMem m).rndCount = s.rndCount := rfl

/-! ### `State.setPc` -/

@[simp] theorem State.setPc_v (s : State) (w : Word) : (s.setPc w).v = s.v := rfl
@[simp] theorem State.setPc_i (s : State) (w : Word) : (s.setPc w).i = s.i := rfl
@[simp] theorem State.setPc_pc (s : State) (w : Word) : (s.setPc w).pc = w := rfl
@[simp] theorem State.setPc_stack (s : State) (w : Word) : (s.setPc w).stack = s.stack := rfl
@[simp] theorem State.setPc_sp (s : State) (w : Word) : (s.setPc w).sp = s.sp := rfl
@[simp] theorem State.setPc_dt (s : State) (w : Word) : (s.setPc w).dt = s.dt := rfl
@[simp] theorem State.setPc_st (s : State) (w : Word) : (s.setPc w).st = s.st := rfl
@[simp] theorem State.setPc_mem (s : State) (w : Word) : (s.setPc w).mem = s.mem := rfl
@[simp] theorem State.setPc_fb (s : State) (w : Word) : (s.setPc w).fb = s.fb := rfl
@[simp] theorem State.setPc_dirty (s : State) (w : Word) : (s.setPc w).dirty = s.dirty := rfl
@[simp] theorem State.setPc_key (s : State) (w : Word) : (s.setPc w).key = s.key := rfl
@[simp] theorem State.setPc_wait (s : State) (w : Word) : (s.setPc w).wait = s.wait := rfl
@[simp] theorem State.setPc_waitX (s : State) (w : Word) : (s.setPc w).waitX = s.waitX := rfl
@[simp] theorem State.setPc_keyPrev (s : State) (w : Word) : (s.setPc w).keyPrev = s.keyPrev := rfl
@[simp] theorem State.setPc_halt (s : State) (w : Word) : (s.setPc w).halt = s.halt := rfl
@[simp] theorem State.setPc_fault (s : State) (w : Word) : (s.setPc w).fault = s.fault := rfl
@[simp] theorem State.setPc_strict (s : State) (w : Word) : (s.setPc w).strict = s.strict := rfl
@[simp] theorem State.setPc_font (s : State) (w : Word) : (s.setPc w).font = s.font := rfl
@[simp] theorem State.setPc_rndCount (s : State) (w : Word) : (s.setPc w).rndCount = s.rndCount := rfl

/-! ### `State.advance` -/

@[simp] theorem State.advance_v (s : State) : s.advance.v = s.v := rfl
@[simp] theorem State.advance_i (s : State) : s.advance.i = s.i := rfl
@[simp] theorem State.advance_pc (s : State) : s.advance.pc = s.pc + 2 := rfl
@[simp] theorem State.advance_stack (s : State) : s.advance.stack = s.stack := rfl
@[simp] theorem State.advance_sp (s : State) : s.advance.sp = s.sp := rfl
@[simp] theorem State.advance_dt (s : State) : s.advance.dt = s.dt := rfl
@[simp] theorem State.advance_st (s : State) : s.advance.st = s.st := rfl
@[simp] theorem State.advance_mem (s : State) : s.advance.mem = s.mem := rfl
@[simp] theorem State.advance_fb (s : State) : s.advance.fb = s.fb := rfl
@[simp] theorem State.advance_dirty (s : State) : s.advance.dirty = s.dirty := rfl
@[simp] theorem State.advance_key (s : State) : s.advance.key = s.key := rfl
@[simp] theorem State.advance_wait (s : State) : s.advance.wait = s.wait := rfl
@[simp] theorem State.advance_waitX (s : State) : s.advance.waitX = s.waitX := rfl
@[simp] theorem State.advance_keyPrev (s : State) : s.advance.keyPrev = s.keyPrev := rfl
@[simp] theorem State.advance_halt (s : State) : s.advance.halt = s.halt := rfl
@[simp] theorem State.advance_fault (s : State) : s.advance.fault = s.fault := rfl
@[simp] theorem State.advance_strict (s : State) : s.advance.strict = s.strict := rfl
@[simp] theorem State.advance_font (s : State) : s.advance.font = s.font := rfl
@[simp] theorem State.advance_rndCount (s : State) : s.advance.rndCount = s.rndCount := rfl

/-! ### `State.skipIf` -/

@[simp] theorem State.skipIf_v (s : State) (b : Bool) : (s.skipIf b).v = s.v := rfl
@[simp] theorem State.skipIf_i (s : State) (b : Bool) : (s.skipIf b).i = s.i := rfl
@[simp] theorem State.skipIf_pc (s : State) (b : Bool) : (s.skipIf b).pc = if b then s.pc + 4 else s.pc + 2 := rfl
@[simp] theorem State.skipIf_stack (s : State) (b : Bool) : (s.skipIf b).stack = s.stack := rfl
@[simp] theorem State.skipIf_sp (s : State) (b : Bool) : (s.skipIf b).sp = s.sp := rfl
@[simp] theorem State.skipIf_dt (s : State) (b : Bool) : (s.skipIf b).dt = s.dt := rfl
@[simp] theorem State.skipIf_st (s : State) (b : Bool) : (s.skipIf b).st = s.st := rfl
@[simp] theorem State.skipIf_mem (s : State) (b : Bool) : (s.skipIf b).mem = s.mem := rfl
@[simp] theorem State.skipIf_fb (s : State) (b : Bool) : (s.skipIf b).fb = s.fb := rfl
@[simp] theorem State.skipIf_dirty (s : State) (b : Bool) : (s.skipIf b).dirty = s.dirty := rfl
@[simp] theorem State.skipIf_key (s : State) (b : Bool) : (s.skipIf b).key = s.key := rfl
@[simp] theorem State.skipIf_wait (s : State) (b : Bool) : (s.skipIf b).wait = s.wait := rfl
@[simp] theorem State.skipIf_waitX (s : State) (b : Bool) : (s.skipIf b).waitX = s.waitX := rfl
@[simp] theorem State.skipIf_keyPrev (s : State) (b : Bool) : (s.skipIf b).keyPrev = s.keyPrev := rfl
@[simp] theorem State.skipIf_halt (s : State) (b : Bool) : (s.skipIf b).halt = s.halt := rfl
@[simp] theorem State.skipIf_fault (s : State) (b : Bool) : (s.skipIf b).fault = s.fault := rfl
@[simp] theorem State.skipIf_strict (s : State) (b : Bool) : (s.skipIf b).strict = s.strict := rfl
@[simp] theorem State.skipIf_font (s : State) (b : Bool) : (s.skipIf b).font = s.font := rfl
@[simp] theorem State.skipIf_rndCount (s : State) (b : Bool) : (s.skipIf b).rndCount = s.rndCount := rfl

/-! ### `State.clearScreen` -/

@[simp] theorem State.clearScreen_v (s : State) : s.clearScreen.v = s.v := rfl
@[simp] theorem State.clearScreen_i (s : State) : s.clearScreen.i = s.i := rfl
@[simp] theorem State.clearScreen_pc (s : State) : s.clearScreen.pc = s.pc := rfl
@[simp] theorem State.clearScreen_stack (s : State) : s.clearScreen.stack = s.stack := rfl
@[simp] theorem State.clearScreen_sp (s : State) : s.clearScreen.sp = s.sp := rfl
@[simp] theorem State.clearScreen_dt (s : State) : s.clearScreen.dt = s.dt := rfl
@[simp] theorem State.clearScreen_st (s : State) : s.clearScreen.st = s.st := rfl
@[simp] theorem State.clearScreen_mem (s : State) : s.clearScreen.mem = s.mem := rfl
@[simp] theorem State.clearScreen_fb (s : State) : s.clearScreen.fb = Vector.replicate 32 (Vector.replicate 64 false) := rfl
@[simp] theorem State.clearScreen_dirty (s : State) : s.clearScreen.dirty = true := rfl
@[simp] theorem State.clearScreen_key (s : State) : s.clearScreen.key = s.key := rfl
@[simp] theorem State.clearScreen_wait (s : State) : s.clearScreen.wait = s.wait := rfl
@[simp] theorem State.clearScreen_waitX (s : State) : s.clearScreen.waitX = s.waitX := rfl
@[simp] theorem State.clearScreen_keyPrev (s : State) : s.clearScreen.keyPrev = s.keyPrev := rfl
@[simp] theorem State.clearScreen_halt (s : State) : s.clearScreen.halt = s.halt := rfl
@[simp] theorem State.clearScreen_fault (s : State) : s.clearScreen.fault = s.fault := rfl
@[simp] theorem State.clearScreen_strict (s : State) : s.clearScreen.strict = s.strict := rfl
@[simp] theorem State.clearScreen_font (s : State) : s.clearScreen.font = s.font := rfl
@[simp] theorem State.clearScreen_rndCount (s : State) : s.clearScreen.rndCount = s.rndCount := rfl

/-! ### `State.setFlagThen` -/

@[simp] theorem State.setFlagThen_v (s : State) (x : Reg) (f r : Byte) : (s.setFlagThen x f r).v = ((s.v.set 15 f).set x.toNat r x.isLt) := rfl
@[simp] theorem State.setFlagThen_i (s : State) (x : Reg) (f r : Byte) : (s.setFlagThen x f r).i = s.i := rfl
@[simp] theorem State.setFlagThen_pc (s : State) (x : Reg) (f r : Byte) : (s.setFlagThen x f r).pc = s.pc := rfl
@[simp] theorem State.setFlagThen_stack (s : State) (x : Reg) (f r : Byte) : (s.setFlagThen x f r).stack = s.stack := rfl
@[simp] theorem State.setFlagThen_sp (s : State) (x : Reg) (f r : Byte) : (s.setFlagThen x f r).sp = s.sp := rfl
@[simp] theorem State.setFlagThen_dt (s : State) (x : Reg) (f r : Byte) : (s.setFlagThen x f r).dt = s.dt := rfl
@[simp] theorem State.setFlagThen_st (s : State) (x : Reg) (f r : Byte) : (s.setFlagThen x f r).st = s.st := rfl
@[simp] theorem State.setFlagThen_mem (s : State) (x : Reg) (f r : Byte) : (s.setFlagThen x f r).mem = s.mem := rfl
@[simp] theorem State.setFlagThen_fb (s : State) (x : Reg) (f r : Byte) : (s.setFlagThen x f r).fb = s.fb := rfl
@[simp] theorem State.setFlagThen_dirty (s : State) (x : Reg) (f r : Byte) : (s.setFlagThen x f r).dirty = s.dirty := rfl
@[simp] theorem State.setFlagThen_key (s : State) (x : Reg) (f r : Byte) : (s.setFlagThen x f r).key = s.key := rfl
@[simp] theorem State.setFlagThen_wait (s : State) (x : Reg) (f r : Byte) : (s.setFlagThen x f r).wait = s.wait := rfl
@[simp] theorem State.setFlagThen_waitX (s : State) (x : Reg) (f r : Byte) : (s.setFlagThen x f r).waitX = s.waitX := rfl
@[simp] theorem State.setFlagThen_keyPrev (s : State) (x : Reg) (f r : Byte) : (s.setFlagThen x f r).keyPrev = s.keyPrev := rfl
@[simp] theorem State.setFlagThen_halt (s : State) (x : Reg) (f r : Byte) : (s.setFlagThen x f r).halt = s.halt := rfl
@[simp] theorem State.setFlagThen_fault (s : State) (x : Reg) (f r : Byte) : (s.setFlagThen x f r).fault = s.fault := rfl
@[simp] theorem State.setFlagThen_strict (s : State) (x : Reg) (f r : Byte) : (s.setFlagThen x f r).strict = s.strict := rfl
@[simp] theorem State.setFlagThen_font (s : State) (x : Reg) (f r : Byte) : (s.setFlagThen x f r).font = s.font := rfl
@[simp] theorem State.setFlagThen_rndCount (s : State) (x : Reg) (f r : Byte) : (s.setFlagThen x f r).rndCount = s.rndCount := rfl

/-! ### `State.drawSprite` -/

@[simp] theorem State.drawSprite_v (s : State) (vx vy : Byte) (rows : List Byte) : (s.drawSprite vx vy rows).v = s.v.set 15 (collisionFlag (drawRows vx vy 0 rows (s.fb, false)).2) := rfl
@[simp] theorem State.drawSprite_i (s : State) (vx vy : Byte) (rows : List Byte) : (s.drawSprite vx vy rows).i = s.i := rfl
@[simp] theorem State.drawSprite_pc (s : State) (vx vy : Byte) (rows : List Byte) : (s.drawSprite vx vy rows).pc = s.pc := rfl
@[simp] theorem State.drawSprite_stack (s : State) (vx vy : Byte) (rows : List Byte) : (s.drawSprite vx vy rows).stack = s.stack := rfl
@[simp] theorem State.drawSprite_sp (s : State) (vx vy : Byte) (rows : List Byte) : (s.drawSprite vx vy rows).sp = s.sp := rfl
@[simp] theorem State.drawSprite_dt (s : State) (vx vy : Byte) (rows : List Byte) : (s.drawSprite vx vy rows).dt = s.dt := rfl
@[simp] theorem State.drawSprite_st (s : State) (vx vy : Byte) (rows : List Byte) : (s.drawSprite vx vy rows).st = s.st := rfl
@[simp] theorem State.drawSprite_mem (s : State) (vx vy : Byte) (rows : List Byte) : (s.drawSprite vx vy rows).mem = s.mem := rfl
@[simp] theorem State.drawSprite_fb (s : State) (vx vy : Byte) (rows : List Byte) : (s.drawSprite vx vy rows).fb = (drawRows vx vy 0 rows (s.fb, false)).1 := rfl
@[simp] theorem State.drawSprite_dirty (s : State) (vx vy : Byte) (rows : List Byte) : (s.drawSprite vx vy rows).dirty = true := rfl
@[simp] theorem State.drawSprite_key (s : State) (vx vy : Byte) (rows : List Byte) : (s.drawSprite vx vy rows).key = s.key := rfl
@[simp] theorem State.drawSprite_wait (s : State) (vx vy : Byte) (rows : List Byte) : (s.drawSprite vx vy rows).wait = s.wait := rfl
@[simp] theorem State.drawSprite_waitX (s : State) (vx vy : Byte) (rows : List Byte) : (s.drawSprite vx vy rows).waitX = s.waitX := rfl
@[simp] theorem State.drawSprite_keyPrev (s : State) (vx vy : Byte) (rows : List Byte) : (s.drawSprite vx vy rows).keyPrev = s.keyPrev := rfl
@[simp] theorem State.drawSprite_halt (s : State) (vx vy : Byte) (rows : List Byte) : (s.drawSprite vx vy rows).halt = s.halt := rfl
@[simp] theorem State.drawSprite_fault (s : State) (vx vy : Byte) (rows : List Byte) : (s.drawSprite vx vy rows).fault = s.fault := rfl
@[simp] theorem State.drawSprite_strict (s : State) (vx vy : Byte) (rows : List Byte) : (s.drawSprite vx vy rows).strict = s.strict := rfl
@[simp] theorem State.drawSprite_font (s : State) (vx vy : Byte) (rows : List Byte) : (s.drawSprite vx vy rows).font = s.font := rfl
@[simp] theorem State.drawSprite_rndCount (s : State) (vx vy : Byte) (rows : List Byte) : (s.drawSprite vx vy rows).rndCount = s.rndCount := rfl

/-! ### `hostReset` -/

@[simp] theorem hostReset_v (s : State) : (hostReset s).v = State.reset.v := rfl
@[simp] theorem hostReset_i (s : State) : (hostReset s).i = State.reset.i := rfl
@[simp] theorem hostReset_pc (s : State) : (hostReset s).pc = State.reset.pc := rfl
@[simp] theorem hostReset_stack (s : State) : (hostReset s).stack = State.reset.stack := rfl
@[simp] theorem hostReset_sp (s : State) : (hostReset s).sp = State.reset.sp := rfl
@[simp] theorem hostReset_dt (s : State) : (hostReset s).dt = State.reset.dt := rfl
@[simp] theorem hostReset_st (s : State) : (hostReset s).st = State.reset.st := rfl
@[simp] theorem hostReset_mem (s : State) : (hostReset s).mem = installFont s.font := rfl
@[simp] theorem hostReset_fb (s : State) : (hostReset s).fb = State.reset.fb := rfl
@[simp] theorem hostReset_dirty (s : State) : (hostReset s).dirty = State.reset.dirty := rfl
@[simp] theorem hostReset_key (s : State) : (hostReset s).key = s.key := rfl
@[simp] theorem hostReset_wait (s : State) : (hostReset s).wait = State.reset.wait := rfl
@[simp] theorem hostReset_waitX (s : State) : (hostReset s).waitX = State.reset.waitX := rfl
@[simp] theorem hostReset_keyPrev (s : State) : (hostReset s).keyPrev = State.reset.keyPrev := rfl
@[simp] theorem hostReset_halt (s : State) : (hostReset s).halt = State.reset.halt := rfl
@[simp] theorem hostReset_fault (s : State) : (hostReset s).fault = State.reset.fault := rfl
@[simp] theorem hostReset_strict (s : State) : (hostReset s).strict = s.strict := rfl
@[simp] theorem hostReset_font (s : State) : (hostReset s).font = s.font := rfl
@[simp] theorem hostReset_rndCount (s : State) : (hostReset s).rndCount = s.rndCount := rfl

end Sys2Proof.Machine
end

