-- ==== Sys2Proof/Laws/Registers.lean ====
section
/-! SUPPORT. Reading registers after writing them, the block transfers, the stack, and taking a fault. -/

namespace Sys2Proof.Machine

/-- A register after a write: the written one holds the byte, every other one what it held. -/
@[simp] theorem State.getV_setV (s : State) (x r : Reg) (b : Byte) :
    (s.setV x b).getV r = if r = x then b else s.getV r := by
  simp only [State.getV, State.setV_v, Vector.getElem_set]
  by_cases h : r = x
  · subst h; simp
  · rw [if_neg (fun h' => h (BitVec.eq_of_toNat_eq h'.symm)), if_neg h]

/-- Flag first, result second: the result wins where both name register 15 (R22). -/
@[simp] theorem State.getV_setFlagThen (s : State) (x r : Reg) (f b : Byte) :
    (s.setFlagThen x f b).getV r = if r = x then b else if r = 15 then f else s.getV r := by
  simp only [State.setFlagThen, State.getV_setV]

/-- The flag survives where the destination is another register. -/
theorem State.getV_flag (s : State) {x : Reg} (f b : Byte) (hx : x ≠ 15) : (s.setFlagThen x f b).getV 15 = f := by
  rw [State.getV_setFlagThen, if_neg (Ne.symm hx), if_pos rfl]

/-- The result is in its register, register 15 included. -/
theorem State.getV_result (s : State) (x : Reg) (f b : Byte) : (s.setFlagThen x f b).getV x = b := by
  rw [State.getV_setFlagThen, if_pos rfl]

/-- A register is read through `v` alone. -/
theorem State.getV_congr {s t : State} (h : t.v = s.v) (r : Reg) : t.getV r = s.getV r := by
  simp only [State.getV, h]

@[simp] theorem State.getV_setI (s : State) (w : Word) (r : Reg) : (s.setI w).getV r = s.getV r := rfl
@[simp] theorem State.getV_setDt (s : State) (b : Byte) (r : Reg) : (s.setDt b).getV r = s.getV r := rfl
@[simp] theorem State.getV_setSt (s : State) (b : Byte) (r : Reg) : (s.setSt b).getV r = s.getV r := rfl
@[simp] theorem State.getV_setMem (s : State) (m : Memory) (r : Reg) : (s.setMem m).getV r = s.getV r := rfl
@[simp] theorem State.getV_setPc (s : State) (w : Word) (r : Reg) : (s.setPc w).getV r = s.getV r := rfl
@[simp] theorem State.getV_advance (s : State) (r : Reg) : s.advance.getV r = s.getV r := rfl
@[simp] theorem State.getV_skipIf (s : State) (b : Bool) (r : Reg) : (s.skipIf b).getV r = s.getV r := rfl
@[simp] theorem State.getV_clearScreen (s : State) (r : Reg) : s.clearScreen.getV r = s.getV r := rfl

/-! ### Block transfers -/

theorem fillRegs_getElem (v : Vector Byte 16) (j : Nat) (bs : List Byte) (k : Nat) (hk : k < 16) :
    (fillRegs v j bs)[k] = if j ≤ k ∧ k < j + bs.length then bs.getD (k - j) 0 else v[k] := by
  induction bs generalizing v j with
  | nil => rw [if_neg (by simp only [List.length_nil]; omega)]; rfl
  | cons b bs ih =>
    rw [fillRegs, ih]
    simp only [List.length_cons, Vector.getElem_setIfInBounds]
    by_cases h1 : j = k
    · subst h1
      rw [if_neg (by omega), if_pos rfl, if_pos (by omega), Nat.sub_self]; rfl
    · by_cases h2 : j + 1 ≤ k ∧ k < j + 1 + bs.length
      · rw [if_pos h2, if_pos (by omega)]
        obtain ⟨i, rfl⟩ : ∃ i, k = j + 1 + i := ⟨k - (j + 1), by omega⟩
        rw [show j + 1 + i - (j + 1) = i by omega, show j + 1 + i - j = i + 1 by omega]; rfl
      · rw [if_neg h2, if_neg h1, if_neg (by omega)]

@[simp] theorem length_firstRegs (v : Vector Byte 16) (x : Reg) : (firstRegs v x).length = x.toNat + 1 := by
  have := x.isLt
  simp [firstRegs]; omega

theorem getD_firstRegs (v : Vector Byte 16) (x : Reg) (k : Nat) (hk : k ≤ x.toNat) :
    (firstRegs v x).getD k 0 = v[k]'(Nat.lt_of_le_of_lt hk x.isLt) := by
  have := x.isLt
  simp [firstRegs, List.getD_eq_getElem?_getD, Nat.lt_succ_of_le hk, show k < 16 by omega]

/-! ### The stack -/

/-- A push succeeds exactly below depth 16 and adds one entry. -/
theorem State.push_eq_some {s t : State} {ret : Word} (h : s.push ret = some t) :
    ∃ hs : s.sp.val < 16, t = { s with stack := s.stack.set s.sp.val ret hs, sp := ⟨s.sp.val + 1, Nat.succ_lt_succ hs⟩ } := by
  unfold State.push at h
  split at h
  · exact ⟨‹_›, (Option.some.inj h).symm⟩
  · cases h

/-- A push fails exactly at depth 16. -/
theorem State.push_eq_none {s : State} {ret : Word} : s.push ret = none ↔ s.sp.val = 16 := by
  have := s.sp.isLt
  unfold State.push
  split <;> simp <;> omega

/-- A pop succeeds exactly above depth 0, answers the newest entry and drops it. -/
theorem State.pop_eq_some {s t : State} {ret : Word} (h : s.pop = some (ret, t)) :
    ∃ hs : 0 < s.sp.val, ret = s.stack[s.sp.val - 1]'(by have := s.sp.isLt; omega) ∧
      t = { s with sp := ⟨s.sp.val - 1, by have := s.sp.isLt; omega⟩ } := by
  unfold State.pop at h
  split at h
  · have h' := Option.some.inj h
    exact ⟨‹_›, (congrArg Prod.fst h').symm, (congrArg Prod.snd h').symm⟩
  · cases h

/-- A pop fails exactly at depth 0. -/
theorem State.pop_eq_none {s : State} : s.pop = none ↔ s.sp.val = 0 := by
  unfold State.pop
  split <;> simp <;> omega

/-! ### Faults -/

/-- Everything taking a fault does (R173). -/
theorem takeFault_eq_next {k : FaultKind} {info word : Word} {s t : State} (h : takeFault k info word s = .next t) :
    t = { s with halt := true, fault := ⟨k, info, word⟩ } := by
  cases h; rfl

/-! ### Key indices -/

/-- A key index is the register's value when that is below 16. -/
theorem keyIndex_eq (b : Byte) : keyIndex b = if h : b.toNat < 16 then some ⟨b.toNat, h⟩ else none := rfl

end Sys2Proof.Machine
end

