-- ==== Sys2Proof/Laws/Draw.lean ====
section
/-! SUPPORT. What drawing a sprite does to every pixel, and when it collides, said once for the loops of Machine/Draw.lean. -/

namespace Sys2Proof.Machine

/-- XOR of one pixel changes that pixel only. -/
theorem Framebuffer.pixel_xorPixel (fb : Framebuffer) (x x' : Fin 64) (y y' : Fin 32) (b : Bool) :
    (fb.xorPixel x y b).pixel x' y' = (fb.pixel x' y' ^^ (decide (x = x') && decide (y = y') && b)) := by
  unfold Framebuffer.pixel Framebuffer.xorPixel
  by_cases hy : y = y'
  · subst hy
    by_cases hx : x = x'
    · subst hx; simp
    · have : x.val ≠ x'.val := fun h => hx (Fin.ext h)
      simp [hx, this]
  · have : y.val ≠ y'.val := fun h => hy (Fin.ext h)
    simp [hy, this]

/-- A pixel a sprite touches, and the sprite bit there. -/
abbrev Target := Fin 64 × Fin 32 × Bool

/-- The targets of one row, in the order the loop visits them. -/
def rowTargets (vx vy : Byte) (row : Nat) (b : Byte) : List Target :=
  [0, 1, 2, 3, 4, 5, 6, 7].map fun col => (wrapX vx col, wrapY vy row, spriteBit b col)

/-- The targets of the rows from number `row` on. -/
def spriteTargets (vx vy : Byte) (row : Nat) : List Byte → List Target
  | [] => []
  | b :: bs => rowTargets vx vy row b ++ spriteTargets vx vy (row + 1) bs

/-- Plotting a list of targets. -/
def plotAll (acc : Framebuffer × Bool) (ts : List Target) : Framebuffer × Bool :=
  ts.foldl (fun acc t => plot acc t.1 t.2.1 t.2.2) acc

theorem drawRows_eq_plotAll (vx vy : Byte) (row : Nat) (bs : List Byte) (acc : Framebuffer × Bool) :
    drawRows vx vy row bs acc = plotAll acc (spriteTargets vx vy row bs) := by
  induction bs generalizing row acc with
  | nil => rfl
  | cons b bs ih =>
    rw [drawRows, ih, spriteTargets, plotAll, plotAll, List.foldl_append]
    simp only [drawRow, rowTargets, List.foldl_map]

/-- Two targets at different pixels. -/
def Target.apart (t u : Target) : Prop := ¬(t.1 = u.1 ∧ t.2.1 = u.2.1)

/-- Targets at distinct pixels: each pixel is XORed with the bit it meets, and a collision is a set pixel under a 1 bit, both of the
framebuffer as it was before the first target (R126). -/
theorem plotAll_spec {ts : List Target} (hts : ts.Pairwise Target.apart) (acc : Framebuffer × Bool) :
    (∀ x y, (plotAll acc ts).1.pixel x y =
      (acc.1.pixel x y ^^ ts.any fun t => decide (t.1 = x) && decide (t.2.1 = y) && t.2.2)) ∧
    (plotAll acc ts).2 = (acc.2 || ts.any fun t => t.2.2 && acc.1.pixel t.1 t.2.1) := by
  induction ts generalizing acc with
  | nil => simp [plotAll]
  | cons t ts ih =>
    obtain ⟨ht, hts⟩ := List.pairwise_cons.mp hts
    obtain ⟨ihp, ihc⟩ := ih hts (plot acc t.1 t.2.1 t.2.2)
    have hstep : plotAll acc (t :: ts) = plotAll (plot acc t.1 t.2.1 t.2.2) ts := rfl
    refine ⟨fun x y => ?_, ?_⟩
    · rw [hstep, ihp, List.any_cons]
      simp only [plot, Framebuffer.pixel_xorPixel]
      by_cases hxy : t.1 = x ∧ t.2.1 = y
      · have hrest : (ts.any fun u => decide (u.1 = x) && decide (u.2.1 = y) && u.2.2) = false := by
          rw [List.any_eq_false]
          intro u hu
          have := ht u hu
          simp only [Target.apart, hxy.1, hxy.2] at this
          simp only [Bool.and_eq_true, decide_eq_true_eq]
          exact fun h => this ⟨h.1.1.symm, h.1.2.symm⟩
        rw [hrest]; simp
      · have hhead : (decide (t.1 = x) && decide (t.2.1 = y)) = false := by
          simpa using hxy
        rw [hhead]; simp
    · rw [hstep, ihc, List.any_cons]
      simp only [plot]
      have hrest : (ts.any fun u => u.2.2 && (acc.1.xorPixel t.1 t.2.1 t.2.2).pixel u.1 u.2.1) =
          ts.any fun u => u.2.2 && acc.1.pixel u.1 u.2.1 := by
        rw [Bool.eq_iff_iff, List.any_eq_true, List.any_eq_true]
        refine exists_congr fun u => and_congr_right fun hu => ?_
        have := ht u hu
        have hd : (decide (t.1 = u.1) && decide (t.2.1 = u.2.1)) = false := by
          simpa [Target.apart] using this
        rw [Framebuffer.pixel_xorPixel, hd]; simp
      rw [hrest, Bool.or_assoc]

theorem mem_rowTargets {vx vy : Byte} {row : Nat} {b : Byte} {t : Target} (h : t ∈ rowTargets vx vy row b) :
    ∃ col, col < 8 ∧ t = (wrapX vx col, wrapY vy row, spriteBit b col) := by
  obtain ⟨col, hcol, rfl⟩ := List.mem_map.mp h
  exact ⟨col, by simp at hcol; omega, rfl⟩

theorem mem_spriteTargets {vx vy : Byte} {row : Nat} {bs : List Byte} {t : Target} (h : t ∈ spriteTargets vx vy row bs) :
    ∃ r col, row ≤ r ∧ r < row + bs.length ∧ col < 8 ∧ t = (wrapX vx col, wrapY vy r, spriteBit (bs.getD (r - row) 0) col) := by
  induction bs generalizing row with
  | nil => cases h
  | cons b bs ih =>
    rcases List.mem_append.mp h with h | h
    · obtain ⟨col, hcol, rfl⟩ := mem_rowTargets h
      exact ⟨row, col, by omega, by simp, hcol, by simp⟩
    · obtain ⟨r, col, h1, h2, h3, rfl⟩ := ih h
      refine ⟨r, col, by omega, by simp only [List.length_cons]; omega, h3, ?_⟩
      rw [show r - row = (r - (row + 1)) + 1 by omega, List.getD_cons_succ]

theorem wrapX_inj {vx : Byte} {c d : Nat} (hc : c < 8) (hd : d < 8) (h : wrapX vx c = wrapX vx d) : c = d := by
  have := congrArg Fin.val h
  simp only [wrapX] at this
  omega

theorem wrapY_inj {vy : Byte} {r q : Nat} (hr : r < q + 32) (hq : q < r + 32) (h : wrapY vy r = wrapY vy q) : r = q := by
  have := congrArg Fin.val h
  simp only [wrapY] at this
  omega

/-- "Within one draw no pixel is touched twice" (R126). -/
theorem spriteTargets_apart (vx vy : Byte) (row : Nat) (bs : List Byte) (hbs : bs.length ≤ 32) :
    (spriteTargets vx vy row bs).Pairwise Target.apart := by
  induction bs generalizing row with
  | nil => exact List.Pairwise.nil
  | cons b bs ih =>
    simp only [List.length_cons] at hbs
    refine List.pairwise_append.mpr ⟨?_, ih (row + 1) (by omega), ?_⟩
    · refine List.pairwise_map.mpr (List.Pairwise.imp_of_mem ?_ (by decide : [0, 1, 2, 3, 4, 5, 6, 7].Pairwise (· ≠ ·)))
      intro c d hc hd hcd h
      exact hcd (wrapX_inj (by simp at hc; omega) (by simp at hd; omega) h.1)
    · intro t ht u hu h
      obtain ⟨c, hc, rfl⟩ := mem_rowTargets ht
      obtain ⟨r, d, h1, h2, -, rfl⟩ := mem_spriteTargets hu
      have := wrapY_inj (by omega) (by omega) h.2
      omega

theorem spriteTargets_mem (vx vy : Byte) (row : Nat) (bs : List Byte) (r col : Nat) (hr : r < bs.length) (hcol : col < 8) :
    (wrapX vx col, wrapY vy (row + r), spriteBit (bs.getD r 0) col) ∈ spriteTargets vx vy row bs := by
  induction bs generalizing row r with
  | nil => simp at hr
  | cons b bs ih =>
    refine List.mem_append.mpr ?_
    cases r with
    | zero => exact .inl (List.mem_map.mpr ⟨col, by simp; omega, rfl⟩)
    | succ r =>
      have := ih (row + 1) r (by simpa using hr)
      rw [show row + 1 + r = row + (r + 1) by omega] at this
      exact .inr (by simpa using this)

/-- The targets cover a pixel with a 1 bit exactly when the sprite does. -/
theorem any_spriteTargets (vx vy : Byte) (bs : List Byte) (x : Fin 64) (y : Fin 32) :
    ((spriteTargets vx vy 0 bs).any fun t => decide (t.1 = x) && decide (t.2.1 = y) && t.2.2) = spriteCovers vx vy bs x y := by
  rw [Bool.eq_iff_iff]
  simp only [spriteCovers, List.any_eq_true, Bool.and_eq_true, decide_eq_true_eq, beq_iff_eq, List.mem_range]
  constructor
  · rintro ⟨t, ht, ⟨rfl, rfl⟩, hbit⟩
    obtain ⟨r, col, -, hr, hcol, rfl⟩ := mem_spriteTargets ht
    exact ⟨r, by omega, col, hcol, ⟨rfl, rfl⟩, by simpa [spriteBit] using hbit⟩
  · rintro ⟨r, hr, col, hcol, ⟨hx, hy⟩, hbit⟩
    have := spriteTargets_mem vx vy 0 bs r col hr hcol
    rw [Nat.zero_add] at this
    exact ⟨_, this, ⟨Fin.ext hx, Fin.ext hy⟩, hbit⟩

/-- Every pixel after drawing: XORed with the sprite bit that lands on it. -/
theorem pixel_drawRows (vx vy : Byte) (bs : List Byte) (hbs : bs.length ≤ 32) (acc : Framebuffer × Bool) (x : Fin 64) (y : Fin 32) :
    (drawRows vx vy 0 bs acc).1.pixel x y = (acc.1.pixel x y ^^ spriteCovers vx vy bs x y) := by
  rw [drawRows_eq_plotAll, (plotAll_spec (spriteTargets_apart vx vy 0 bs hbs) acc).1, any_spriteTargets]

/-- Drawing collides exactly when some pixel set before is covered by a 1 bit. -/
theorem collides_drawRows (vx vy : Byte) (bs : List Byte) (hbs : bs.length ≤ 32) (fb : Framebuffer) :
    (drawRows vx vy 0 bs (fb, false)).2 = true ↔ ∃ x y, fb.pixel x y = true ∧ spriteCovers vx vy bs x y = true := by
  rw [drawRows_eq_plotAll, (plotAll_spec (spriteTargets_apart vx vy 0 bs hbs) _).2, Bool.false_or, List.any_eq_true]
  constructor
  · rintro ⟨t, ht, h⟩
    rw [Bool.and_eq_true] at h
    refine ⟨t.1, t.2.1, h.2, ?_⟩
    rw [← any_spriteTargets, List.any_eq_true]
    exact ⟨t, ht, by simpa using h.1⟩
  · rintro ⟨x, y, hset, hcov⟩
    rw [← any_spriteTargets, List.any_eq_true] at hcov
    obtain ⟨t, ht, h⟩ := hcov
    simp only [Bool.and_eq_true, decide_eq_true_eq] at h
    obtain ⟨⟨rfl, rfl⟩, hb⟩ := h
    exact ⟨t, ht, by rw [hb, hset]; rfl⟩

end Sys2Proof.Machine
end

