-- ==== Sys2Proof/Laws/Memory.lean ====
section
/-! SUPPORT. What the memory operations do: read after write, the canonical form kept, and equal reads give equal memories. -/

namespace Sys2Proof.Machine

/-! ### Canonical form -/

theorem Memory.wfFrom_mono {low low' : Nat} (h : low' ≤ low) {m : Memory} (hm : Memory.wfFrom low m = true) :
    Memory.wfFrom low' m = true := by
  cases m with
  | nil => rfl
  | cons c m =>
    obtain ⟨a, d⟩ := c
    simp only [Memory.wfFrom, Bool.and_eq_true, decide_eq_true_eq] at hm ⊢
    exact ⟨⟨⟨by omega, hm.1.1.2⟩, hm.1.2⟩, hm.2⟩

theorem Memory.wfFrom_eraseCell {m : Memory} {a low : Nat} (hm : Memory.wfFrom low m = true) :
    Memory.wfFrom low (Memory.eraseCell m a) = true := by
  induction m generalizing low with
  | nil => rfl
  | cons c m ih =>
    obtain ⟨c, d⟩ := c
    simp only [Memory.wfFrom, Bool.and_eq_true, decide_eq_true_eq] at hm
    simp only [Memory.eraseCell]
    split
    · exact Memory.wfFrom_mono (by omega) hm.2
    · simp only [Memory.wfFrom, Bool.and_eq_true, decide_eq_true_eq]
      exact ⟨hm.1, ih hm.2⟩

theorem Memory.wfFrom_insertCell {m : Memory} {a low : Nat} {b : Byte} (hm : Memory.wfFrom low m = true)
    (hlow : low ≤ a) (ha : a < Config.memSize) (hb : b ≠ Memory.unlisted a) :
    Memory.wfFrom low (Memory.insertCell m a b) = true := by
  induction m generalizing low with
  | nil =>
    simp only [Memory.insertCell, Memory.wfFrom, Bool.and_eq_true, decide_eq_true_eq, bne_iff_ne]
    exact ⟨⟨⟨hlow, ha⟩, hb⟩, trivial⟩
  | cons c m ih =>
    obtain ⟨c, d⟩ := c
    simp only [Memory.wfFrom, Bool.and_eq_true, decide_eq_true_eq, bne_iff_ne] at hm
    simp only [Memory.insertCell]
    split
    · simp only [Memory.wfFrom, Bool.and_eq_true, decide_eq_true_eq, bne_iff_ne]
      exact ⟨⟨⟨hlow, ha⟩, hb⟩, ⟨⟨by omega, hm.1.1.2⟩, hm.1.2⟩, hm.2⟩
    · split
      · subst_vars
        simp only [Memory.wfFrom, Bool.and_eq_true, decide_eq_true_eq, bne_iff_ne]
        exact ⟨⟨⟨hlow, ha⟩, hb⟩, hm.2⟩
      · simp only [Memory.wfFrom, Bool.and_eq_true, decide_eq_true_eq, bne_iff_ne]
        exact ⟨hm.1, ih hm.2 (by omega)⟩

/-- Writing an existing address keeps the canonical form. -/
theorem Memory.wf_write {m : Memory} {a : Nat} {b : Byte} (hm : Memory.wf m = true) (ha : a < Config.memSize) :
    Memory.wf (Memory.write m a b) = true := by
  unfold Memory.write
  split
  · exact Memory.wfFrom_eraseCell hm
  · exact Memory.wfFrom_insertCell hm (Nat.zero_le a) ha ‹_›

theorem Memory.wf_writeMany {m : Memory} {a : Nat} {bs : List Byte} (hm : Memory.wf m = true)
    (ha : bs = [] ∨ a + bs.length ≤ Config.memSize) : Memory.wf (Memory.writeMany m a bs) = true := by
  induction bs generalizing m a with
  | nil => exact hm
  | cons b bs ih =>
    simp only [reduceCtorEq, List.length_cons, false_or] at ha
    exact ih (Memory.wf_write hm (by omega)) (.inr (by omega))

/-! ### Reads after writes -/

theorem Memory.read_of_lt_wfFrom {m : Memory} {a low : Nat} (hm : Memory.wfFrom low m = true) (ha : a < low) :
    Memory.read m a = Memory.unlisted a := by
  induction m generalizing low with
  | nil => rfl
  | cons c m ih =>
    obtain ⟨c, d⟩ := c
    simp only [Memory.wfFrom, Bool.and_eq_true, decide_eq_true_eq] at hm
    simp only [Memory.read]
    rw [if_neg (by omega)]
    exact ih hm.2 (by omega)

theorem Memory.read_insertCell (m : Memory) (a c : Nat) (b : Byte) :
    Memory.read (Memory.insertCell m a b) c = if c = a then b else Memory.read m c := by
  induction m with
  | nil => rfl
  | cons e m ih =>
    obtain ⟨e, d⟩ := e
    simp only [Memory.insertCell]
    split
    · rfl
    · split
      · subst_vars
        simp only [Memory.read]
        split <;> rfl
      · simp only [Memory.read, ih]
        split
        · rw [if_neg (by omega)]
        · rfl

theorem Memory.read_eraseCell {m : Memory} {low : Nat} (hm : Memory.wfFrom low m = true) (a c : Nat) :
    Memory.read (Memory.eraseCell m a) c = if c = a then Memory.unlisted a else Memory.read m c := by
  induction m generalizing low with
  | nil =>
    simp only [Memory.eraseCell, Memory.read]
    split <;> simp_all
  | cons e m ih =>
    obtain ⟨e, d⟩ := e
    simp only [Memory.wfFrom, Bool.and_eq_true, decide_eq_true_eq] at hm
    simp only [Memory.eraseCell]
    split
    · subst_vars
      split
      · subst_vars; exact Memory.read_of_lt_wfFrom hm.2 (by omega)
      · simp only [Memory.read]; rw [if_neg ‹_›]
    · simp only [Memory.read, ih hm.2]
      split
      · rw [if_neg (by omega)]
      · rfl

/-- Read after write: the written address gives the written byte, every other address what it gave. -/
theorem Memory.read_write {m : Memory} (hm : Memory.wf m = true) (a c : Nat) (b : Byte) :
    Memory.read (Memory.write m a b) c = if c = a then b else Memory.read m c := by
  unfold Memory.write
  split
  · subst_vars; exact Memory.read_eraseCell hm a c
  · exact Memory.read_insertCell m a c b

/-- A block write gives the block's bytes at its addresses and leaves every other address alone. -/
theorem Memory.read_writeMany {m : Memory} (hm : Memory.wf m = true) {a : Nat} {bs : List Byte}
    (ha : bs = [] ∨ a + bs.length ≤ Config.memSize) (c : Nat) :
    Memory.read (Memory.writeMany m a bs) c =
      if a ≤ c ∧ c < a + bs.length then bs.getD (c - a) 0 else Memory.read m c := by
  induction bs generalizing m a with
  | nil => rw [if_neg (by simp only [List.length_nil]; omega)]; rfl
  | cons b bs ih =>
    simp only [reduceCtorEq, List.length_cons, false_or] at ha
    rw [Memory.writeMany, ih (Memory.wf_write hm (by omega)) (.inr (by omega)), Memory.read_write hm]
    simp only [List.length_cons]
    by_cases h1 : c = a
    · subst h1
      rw [if_neg (by omega), if_pos rfl, if_pos (by omega), Nat.sub_self]; rfl
    · by_cases h2 : a + 1 ≤ c ∧ c < a + 1 + bs.length
      · rw [if_pos h2, if_pos (by omega)]
        obtain ⟨k, rfl⟩ : ∃ k, c = a + 1 + k := ⟨c - (a + 1), by omega⟩
        rw [show a + 1 + k - (a + 1) = k by omega, show a + 1 + k - a = k + 1 by omega]; rfl
      · rw [if_neg h2, if_neg h1, if_neg (by omega)]

/-! ### The configured font -/

/-- Reset's memory is canonical whatever `FONT` is. -/
theorem wf_installFont (font : Vector Byte Config.fontLen) : Memory.wf (installFont font) = true :=
  Memory.wf_writeMany rfl (.inr (by simp only [Vector.length_toList]; decide))

/-- Everything reset's memory holds: the configured `FONT` at 0..79 and 0 above (R37). -/
theorem read_installFont (font : Vector Byte Config.fontLen) (a : Nat) :
    Memory.read (installFont font) a = if h : a < Config.fontLen then font[a] else 0 := by
  rw [installFont, Memory.read_writeMany rfl (.inr (by simp only [Vector.length_toList]; decide))]
  simp only [Vector.length_toList, Nat.zero_le, true_and, Nat.zero_add, Nat.sub_zero]
  split
  · rw [List.getD_eq_getElem?_getD]; simp [*]
  · simp only [Memory.read, Memory.unlisted]
    rw [List.getD_eq_getElem?_getD, List.getElem?_eq_none]
    · rfl
    · have : fontTable.length = Config.fontLen := rfl
      omega

/-- Under the default table nothing is listed after reset. -/
theorem installFont_defaultFont : installFont defaultFont = [] := by decide

/-- `State.reset` is the reset state of the default configuration. -/
theorem resetState_default : resetState defaultFont false = State.reset := by
  rw [resetState, installFont_defaultFont]; rfl

/-! ### Block reads -/

@[simp] theorem Memory.length_readMany (m : Memory) (a len : Nat) : (Memory.readMany m a len).length = len := by
  induction len generalizing a with
  | zero => rfl
  | succ len ih => simp [Memory.readMany, ih]

theorem Memory.getD_readMany (m : Memory) (a len k : Nat) (h : k < len) :
    (Memory.readMany m a len).getD k 0 = Memory.read m (a + k) := by
  induction len generalizing a k with
  | zero => omega
  | succ len ih =>
    cases k with
    | zero => rfl
    | succ k =>
      rw [Memory.readMany, List.getD_cons_succ, ih (a + 1) k (by omega)]
      congr 1; omega

/-! ### Blocks -/

/-- A block fits when it is empty or lies in 0..4095. -/
theorem blockFits_iff (base : Word) (len : Nat) : blockFits base len = true ↔ len = 0 ∨ base.toNat + len ≤ 4096 := by
  rw [blockFits, Bool.or_eq_true, beq_iff_eq, decide_eq_true_iff]; rfl

/-- A block read answers the bytes exactly when the block is empty or lies in 0..4095, and otherwise `max(base, 4096)`. -/
theorem readBlock_eq (m : Memory) (base : Word) (len : Nat) :
    readBlock m base len =
      if len = 0 ∨ base.toNat + len ≤ 4096 then .ok (Memory.readMany m base.toNat len) else .error (firstBadAddr base) := by
  simp only [readBlock, blockFits_iff]

/-- A block write answers the written memory exactly when the block is empty or lies in 0..4095. -/
theorem writeBlock_eq (m : Memory) (base : Word) (bs : List Byte) :
    writeBlock m base bs =
      if bs.length = 0 ∨ base.toNat + bs.length ≤ 4096 then .ok (Memory.writeMany m base.toNat bs)
      else .error (firstBadAddr base) := by
  simp only [writeBlock, blockFits_iff]

/-- Everything a block write that succeeds does to memory. -/
theorem writeBlock_ok {m m' : Memory} {base : Word} {bs : List Byte} (hm : Memory.wf m = true)
    (h : writeBlock m base bs = .ok m') :
    (bs = [] ∨ base.toNat + bs.length ≤ 4096) ∧ Memory.wf m' = true ∧
    ∀ c, Memory.read m' c =
      if base.toNat ≤ c ∧ c < base.toNat + bs.length then bs.getD (c - base.toNat) 0 else Memory.read m c := by
  rw [writeBlock_eq] at h
  split at h
  · rename_i hfit
    have hfit' : bs = [] ∨ base.toNat + bs.length ≤ 4096 := hfit.imp List.length_eq_zero_iff.mp id
    cases h
    exact ⟨hfit', Memory.wf_writeMany hm hfit', Memory.read_writeMany hm hfit'⟩
  · cases h

/-- The reported address is `max(base, 4096)` (R55). -/
theorem toNat_firstBadAddr (base : Word) : (firstBadAddr base).toNat = max base.toNat 4096 := by
  unfold firstBadAddr Config.memSize
  split
  · omega
  · show 4096 = _; omega

end Sys2Proof.Machine
end

