-- ==== Sys2Proof/Laws/Exec.lean ====
section
/-! SUPPORT. The instructions whose meaning branches, one equation per branch, and everything a cycle can do. -/

namespace Sys2Proof.Machine

/-! ### Call and return -/

theorem execRet_of_pos {ign : Nibble} {s : State} (h : 0 < s.sp.val) :
    execRet ign s = .next { s with
      sp := ⟨s.sp.val - 1, by have := s.sp.isLt; omega⟩
      pc := s.stack[s.sp.val - 1]'(by have := s.sp.isLt; omega) } := by
  simp only [execRet, State.pop, dif_pos h]; rfl

theorem execRet_of_zero {ign : Nibble} {s : State} (h : s.sp.val = 0) :
    execRet ign s = .next (s.faulted .stackUnderflow 0 (encode (.ret ign))) := by
  simp only [execRet, State.pop, dif_neg (show ¬0 < s.sp.val by omega)]; rfl

theorem execCall_of_lt {nnn : Addr12} {s : State} (h : s.sp.val < 16) :
    execCall nnn s = .next { s with
      stack := s.stack.set s.sp.val (s.pc + 2) h
      sp := ⟨s.sp.val + 1, Nat.succ_lt_succ h⟩
      pc := addrImm nnn } := by
  simp only [execCall, State.push, dif_pos h]; rfl

theorem execCall_of_full {nnn : Addr12} {s : State} (h : s.sp.val = 16) :
    execCall nnn s = .next (s.faulted .stackOverflow (s.pc + 2) (encode (.call nnn))) := by
  simp only [execCall, State.push, dif_neg (show ¬s.sp.val < 16 by omega)]; rfl

/-! ### Key skips -/

theorem execSkp_of_lt {x : Reg} {s : State} (h : (s.getV x).toNat < 16) :
    execSkp x s = .next (s.skipIf (s.key[(s.getV x).toNat]'h)) := by
  simp only [execSkp, keyIndex, dif_pos h]; rfl

theorem execSkp_of_ge {x : Reg} {s : State} (h : 16 ≤ (s.getV x).toNat) :
    execSkp x s = .next (s.faulted .addressError (byteToWord (s.getV x)) (encode (.skp x))) := by
  simp only [execSkp, keyIndex, dif_neg (show ¬(s.getV x).toNat < 16 by omega)]; rfl

theorem execSknp_of_lt {x : Reg} {s : State} (h : (s.getV x).toNat < 16) :
    execSknp x s = .next (s.skipIf (!(s.key[(s.getV x).toNat]'h))) := by
  simp only [execSknp, keyIndex, dif_pos h]; rfl

theorem execSknp_of_ge {x : Reg} {s : State} (h : 16 ≤ (s.getV x).toNat) :
    execSknp x s = .next (s.faulted .addressError (byteToWord (s.getV x)) (encode (.sknp x))) := by
  simp only [execSknp, keyIndex, dif_neg (show ¬(s.getV x).toNat < 16 by omega)]; rfl

/-! ### Block instructions -/

theorem execDrw_of_fits {x y : Reg} {n : Nibble} {s : State} (h : n.toNat = 0 ∨ s.i.toNat + n.toNat ≤ 4096) :
    execDrw x y n s = .next (s.drawSprite (s.getV x) (s.getV y) (Memory.readMany s.mem s.i.toNat n.toNat)).advance := by
  simp only [execDrw, readBlock_eq, if_pos h]

theorem execDrw_of_not_fits {x y : Reg} {n : Nibble} {s : State} (h : ¬(n.toNat = 0 ∨ s.i.toNat + n.toNat ≤ 4096)) :
    execDrw x y n s = .next (s.faulted .addressError (firstBadAddr s.i) (encode (.drw x y n))) := by
  simp only [execDrw, readBlock_eq, if_neg h]; rfl

theorem execLdB_of_fits {x : Reg} {s : State} (h : s.i.toNat + 3 ≤ 4096) :
    execLdB x s = .next (s.setMem (Memory.writeMany s.mem s.i.toNat (bcdDigits (s.getV x)))).advance := by
  simp only [execLdB, writeBlock_eq, if_pos (show (bcdDigits (s.getV x)).length = 0 ∨ s.i.toNat + (bcdDigits (s.getV x)).length ≤ 4096 from .inr h)]

theorem execLdB_of_not_fits {x : Reg} {s : State} (h : ¬s.i.toNat + 3 ≤ 4096) :
    execLdB x s = .next (s.faulted .addressError (firstBadAddr s.i) (encode (.ldB x))) := by
  have : ¬((bcdDigits (s.getV x)).length = 0 ∨ s.i.toNat + (bcdDigits (s.getV x)).length ≤ 4096) := by
    simp [bcdDigits]; omega
  simp only [execLdB, writeBlock_eq, if_neg this]; rfl

theorem execDump_of_fits {x : Reg} {s : State} (h : s.i.toNat + x.toNat + 1 ≤ 4096) :
    execDump x s = .next (s.setMem (Memory.writeMany s.mem s.i.toNat (firstRegs s.v x))).advance := by
  have : (firstRegs s.v x).length = 0 ∨ s.i.toNat + (firstRegs s.v x).length ≤ 4096 := by
    rw [length_firstRegs]; omega
  simp only [execDump, writeBlock_eq, if_pos this]

theorem execDump_of_not_fits {x : Reg} {s : State} (h : ¬s.i.toNat + x.toNat + 1 ≤ 4096) :
    execDump x s = .next (s.faulted .addressError (firstBadAddr s.i) (encode (.dump x))) := by
  have : ¬((firstRegs s.v x).length = 0 ∨ s.i.toNat + (firstRegs s.v x).length ≤ 4096) := by
    rw [length_firstRegs]; omega
  simp only [execDump, writeBlock_eq, if_neg this]; rfl

theorem execLoad_of_fits {x : Reg} {s : State} (h : s.i.toNat + x.toNat + 1 ≤ 4096) :
    execLoad x s = .next { s with v := fillRegs s.v 0 (Memory.readMany s.mem s.i.toNat (x.toNat + 1)) }.advance := by
  simp only [execLoad, readBlock_eq, if_pos (show x.toNat + 1 = 0 ∨ s.i.toNat + (x.toNat + 1) ≤ 4096 by omega)]

theorem execLoad_of_not_fits {x : Reg} {s : State} (h : ¬s.i.toNat + x.toNat + 1 ≤ 4096) :
    execLoad x s = .next (s.faulted .addressError (firstBadAddr s.i) (encode (.load x))) := by
  simp only [execLoad, readBlock_eq, if_neg (show ¬(x.toNat + 1 = 0 ∨ s.i.toNat + (x.toNat + 1) ≤ 4096) by omega)]; rfl

/-! ### The cycle -/

/-- A fetch succeeds exactly when both bytes exist, and reads them high byte first (R53). -/
theorem fetchWord_eq (s : State) :
    fetchWord s = if s.pc.toNat ≤ 4094 then .ok s.wordAtPc else .error (firstBadAddr s.pc) := by
  have h : (2 = 0 ∨ s.pc.toNat + 2 ≤ 4096) ↔ s.pc.toNat ≤ 4094 := by omega
  simp only [fetchWord, readBlock_eq, h]
  by_cases hpc : s.pc.toNat ≤ 4094
  · simp only [if_pos hpc]; rfl
  · simp only [if_neg hpc]

theorem step_of_halt {s : State} (h : s.halt = true) : step s = .next s := by
  simp only [step, cycle, if_pos h]

theorem step_of_wait {s : State} (h : s.halt = false) (hw : s.wait = true) : step s = pendingStep s := by
  simp only [step, cycle, h, hw, Bool.false_eq_true, if_false, if_true]

theorem step_of_fetches {s : State} (h : s.Fetches) : step s = runWord s.wordAtPc s := by
  obtain ⟨hh, hw, hpc⟩ := h
  simp only [step, cycle, hh, hw, Bool.false_eq_true, if_false, fetchWord_eq, if_pos hpc]

theorem step_of_fetch_fault {s : State} (h : s.halt = false) (hw : s.wait = false) (hpc : ¬s.pc.toNat ≤ 4094) :
    step s = .next (s.faulted .addressError (firstBadAddr s.pc) 0) := by
  simp only [step, cycle, h, hw, Bool.false_eq_true, if_false, fetchWord_eq, if_neg hpc]; rfl

/-- Everything a cycle can do: nothing (halted), a pending step, a failed fetch, an instruction, or an unknown opcode. -/
theorem step_cases (s : State) :
    (s.halt = true ∧ step s = .next s) ∨
    (s.halt = false ∧ s.wait = true ∧ step s = pendingStep s) ∨
    (s.halt = false ∧ s.wait = false ∧ ¬s.pc.toNat ≤ 4094 ∧
      step s = .next (s.faulted .addressError (firstBadAddr s.pc) 0)) ∨
    (∃ i, s.Fetches ∧ decode s.wordAtPc = .instr i ∧ step s = exec i s) ∨
    (∃ why, s.Fetches ∧ decode s.wordAtPc = .rejected why ∧ step s = unknownOpcode s.wordAtPc s) := by
  by_cases hh : s.halt = true
  · exact .inl ⟨hh, step_of_halt hh⟩
  have hh : s.halt = false := by simpa using hh
  by_cases hw : s.wait = true
  · exact .inr (.inl ⟨hh, hw, step_of_wait hh hw⟩)
  have hw : s.wait = false := by simpa using hw
  by_cases hpc : s.pc.toNat ≤ 4094
  · have hf : s.Fetches := ⟨hh, hw, hpc⟩
    have hs := step_of_fetches hf
    rw [runWord] at hs
    cases hd : decode s.wordAtPc with
    | instr i => exact .inr (.inr (.inr (.inl ⟨i, hf, rfl, by rw [hs, hd]⟩)))
    | rejected why => exact .inr (.inr (.inr (.inr ⟨why, hf, rfl, by rw [hs, hd]⟩)))
  · exact .inr (.inr (.inl ⟨hh, hw, hpc, step_of_fetch_fault hh hw hpc⟩))

/-- A pending cycle samples the keys and either keeps waiting or writes the picked key and goes on (R135). -/
theorem pendingStep_cases (s : State) :
    (keyPick (newKeys s.keyPrev s.key) = none ∧ pendingStep s = .next { s with keyPrev := s.key }) ∨
    ∃ k, keyPick (newKeys s.keyPrev s.key) = some k ∧
      pendingStep s = .next { s.setV s.waitX (BitVec.ofNat 8 k.val) with wait := false, keyPrev := s.key }.advance := by
  unfold pendingStep
  cases h : keyPick (newKeys s.keyPrev s.key) with
  | none => exact .inl ⟨rfl, rfl⟩
  | some k => exact .inr ⟨k, rfl, rfl⟩

end Sys2Proof.Machine
end

