-- ==== Sys2Proof/Laws/Frames.lean ====
section
/-! SUPPORT. Frames: that a piece of state is the same is an order on states, and what a fault changes. -/

namespace Sys2Proof.Machine

theorem Part.same_refl (s : State) (p : Part) : p.same s s := by
  cases p <;> simp [Part.same]

theorem Part.same_trans {s t u : State} {p : Part} (h : p.same s t) (h' : p.same t u) : p.same s u := by
  cases p with
  | memory => exact fun a => (h' a).trans (h a)
  | pixels => exact fun x y => (h' x y).trans (h x y)
  | stack => exact ⟨h'.1.trans h.1, h'.2.trans h.2⟩
  | config => exact ⟨h'.1.trans h.1, h'.2.trans h.2⟩
  | faultState => exact ⟨h'.1.trans h.1, h'.2.trans h.2⟩
  | waiting => exact ⟨h'.1.trans h.1, h'.2.1.trans h.2.1, h'.2.2.trans h.2.2⟩
  | _ => exact Eq.trans h' h

theorem OnlyChanges.refl (parts : List Part) (regs : List Reg) (s : State) : OnlyChanges parts regs s s :=
  ⟨fun p _ => p.same_refl s, fun _ _ => rfl⟩

/-- A fatal fault changes `HALT` and `FAULT` and nothing else (R173). -/
theorem State.faulted_onlyChanges (s : State) (kind : FaultKind) (info word : Word) :
    OnlyChanges [.faultState] [] s (s.faulted kind info word) :=
  ⟨fun p hp => by cases p <;> simp_all [Part.same, State.faulted], fun _ _ => rfl⟩

end Sys2Proof.Machine
end

