-- ==== Sys2Proof/Laws/Operands.lean ====
section
/-! SUPPORT. The operands and flags as arithmetic on values. -/

namespace Sys2Proof.Machine

@[simp] theorem toNat_addrImm (nnn : Addr12) : (addrImm nnn).toNat = nnn.toNat := by
  have := nnn.isLt
  simp only [addrImm, BitVec.toNat_setWidth]; omega

@[simp] theorem toNat_byteToWord (b : Byte) : (byteToWord b).toNat = b.toNat := by
  have := b.isLt
  simp only [byteToWord, BitVec.toNat_setWidth]; omega

theorem toNat_offsetTarget (v0 : Byte) (nnn : Addr12) : (offsetTarget v0 nnn).toNat = v0.toNat + nnn.toNat := by
  have := v0.isLt
  have := nnn.isLt
  simp only [offsetTarget, BitVec.toNat_add, toNat_byteToWord, toNat_addrImm]; omega

theorem toNat_glyphAddr (v : Byte) : (glyphAddr v).toNat = v.toNat * 5 := by
  have := v.isLt
  have h5 : (5 : Word).toNat = 5 := rfl
  simp only [glyphAddr, BitVec.toNat_mul, toNat_byteToWord, h5]; omega

theorem toNat_flagByte (b : Bool) : (flagByte b).toNat = if b then 1 else 0 := by
  cases b <;> rfl

theorem toNat_carryFlag (a b : Byte) : (carryFlag a b).toNat = if a.toNat + b.toNat > 255 then 1 else 0 := by
  simp only [carryFlag, toNat_flagByte, decide_eq_true_eq]

theorem toNat_noBorrowFlag (a b : Byte) : (noBorrowFlag a b).toNat = if a.toNat ≥ b.toNat then 1 else 0 := by
  simp only [noBorrowFlag, toNat_flagByte, decide_eq_true_eq]

theorem toNat_shiftedOutRight (a : Byte) : (shiftedOutRight a).toNat = a.toNat % 2 := by
  rw [shiftedOutRight, toNat_flagByte, BitVec.getLsbD, Nat.testBit_zero]
  have := Nat.mod_two_eq_zero_or_one a.toNat
  split <;> simp_all

theorem toNat_shiftedOutLeft (a : Byte) : (shiftedOutLeft a).toNat = a.toNat / 128 := by
  have := a.isLt
  rw [shiftedOutLeft, toNat_flagByte, BitVec.getLsbD, Nat.testBit_eq_decide_div_mod_eq]
  split <;> simp_all <;> omega

theorem toNat_tickDown (t : Byte) : (tickDown t).toNat = t.toNat - 1 := by
  have := t.isLt
  have h1 : (1 : Byte).toNat = 1 := rfl
  unfold tickDown
  split
  · simp only [BitVec.toNat_sub, h1]; omega
  · omega

end Sys2Proof.Machine
end

