-- ==== Sys2Proof/Laws/PerInstr.lean ====
section
/-! SUPPORT. One fact about every instruction as syntax: its word carries its row's match under its row's mask. -/

namespace Sys2Proof

/-- The row of spec/opcode_table.json claims the instruction's own word: `(word & mask) == match` (R84). -/
def Laws.RowClaims.Statement (i : Instr) : Prop := i.row.claims (encode i) = true

theorem Laws.RowClaims.cls (ign : Nibble) : Statement (.cls ign) :=
  beq_iff_eq.mpr ((and_formatXK _ 0xF _ 0 _ 0xFF).trans (by simp; rfl))

theorem Laws.RowClaims.ret (ign : Nibble) : Statement (.ret ign) :=
  beq_iff_eq.mpr ((and_formatXK _ 0xF _ 0 _ 0xFF).trans (by simp; rfl))

theorem Laws.RowClaims.jp (nnn : Addr12) : Statement (.jp nnn) :=
  beq_iff_eq.mpr ((and_formatA _ 0xF nnn 0).trans (by simp; rfl))

theorem Laws.RowClaims.call (nnn : Addr12) : Statement (.call nnn) :=
  beq_iff_eq.mpr ((and_formatA _ 0xF nnn 0).trans (by simp; rfl))

theorem Laws.RowClaims.seImm (x : Reg) (kk : Byte) : Statement (.seImm x kk) :=
  beq_iff_eq.mpr ((and_formatXK _ 0xF _ 0 _ 0).trans (by simp; rfl))

theorem Laws.RowClaims.sneImm (x : Reg) (kk : Byte) : Statement (.sneImm x kk) :=
  beq_iff_eq.mpr ((and_formatXK _ 0xF _ 0 _ 0).trans (by simp; rfl))

theorem Laws.RowClaims.seReg (x y : Reg) (ign : Nibble) : Statement (.seReg x y ign) :=
  beq_iff_eq.mpr ((and_formatXY _ 0xF _ 0 _ 0 _ 0).trans (by simp; rfl))

theorem Laws.RowClaims.sneReg (x y : Reg) (ign : Nibble) : Statement (.sneReg x y ign) :=
  beq_iff_eq.mpr ((and_formatXY _ 0xF _ 0 _ 0 _ 0).trans (by simp; rfl))

theorem Laws.RowClaims.ldImm (x : Reg) (kk : Byte) : Statement (.ldImm x kk) :=
  beq_iff_eq.mpr ((and_formatXK _ 0xF _ 0 _ 0).trans (by simp; rfl))

theorem Laws.RowClaims.addImm (x : Reg) (kk : Byte) : Statement (.addImm x kk) :=
  beq_iff_eq.mpr ((and_formatXK _ 0xF _ 0 _ 0).trans (by simp; rfl))

theorem Laws.RowClaims.ldReg (x y : Reg) : Statement (.ldReg x y) :=
  beq_iff_eq.mpr ((and_formatXY _ 0xF _ 0 _ 0 _ 0xF).trans (by simp; rfl))

theorem Laws.RowClaims.or (x y : Reg) : Statement (.or x y) :=
  beq_iff_eq.mpr ((and_formatXY _ 0xF _ 0 _ 0 _ 0xF).trans (by simp; rfl))

theorem Laws.RowClaims.and (x y : Reg) : Statement (.and x y) :=
  beq_iff_eq.mpr ((and_formatXY _ 0xF _ 0 _ 0 _ 0xF).trans (by simp; rfl))

theorem Laws.RowClaims.xor (x y : Reg) : Statement (.xor x y) :=
  beq_iff_eq.mpr ((and_formatXY _ 0xF _ 0 _ 0 _ 0xF).trans (by simp; rfl))

theorem Laws.RowClaims.addReg (x y : Reg) : Statement (.addReg x y) :=
  beq_iff_eq.mpr ((and_formatXY _ 0xF _ 0 _ 0 _ 0xF).trans (by simp; rfl))

theorem Laws.RowClaims.sub (x y : Reg) : Statement (.sub x y) :=
  beq_iff_eq.mpr ((and_formatXY _ 0xF _ 0 _ 0 _ 0xF).trans (by simp; rfl))

theorem Laws.RowClaims.shr (x : Reg) (ign : Nibble) : Statement (.shr x ign) :=
  beq_iff_eq.mpr ((and_formatXY _ 0xF _ 0 _ 0 _ 0xF).trans (by simp; rfl))

theorem Laws.RowClaims.subn (x y : Reg) : Statement (.subn x y) :=
  beq_iff_eq.mpr ((and_formatXY _ 0xF _ 0 _ 0 _ 0xF).trans (by simp; rfl))

theorem Laws.RowClaims.shl (x : Reg) (ign : Nibble) : Statement (.shl x ign) :=
  beq_iff_eq.mpr ((and_formatXY _ 0xF _ 0 _ 0 _ 0xF).trans (by simp; rfl))

theorem Laws.RowClaims.skp (x : Reg) : Statement (.skp x) :=
  beq_iff_eq.mpr ((and_formatXK _ 0xF _ 0 _ 0xFF).trans (by simp; rfl))

theorem Laws.RowClaims.sknp (x : Reg) : Statement (.sknp x) :=
  beq_iff_eq.mpr ((and_formatXK _ 0xF _ 0 _ 0xFF).trans (by simp; rfl))

theorem Laws.RowClaims.ldI (nnn : Addr12) : Statement (.ldI nnn) :=
  beq_iff_eq.mpr ((and_formatA _ 0xF nnn 0).trans (by simp; rfl))

theorem Laws.RowClaims.jpV0 (nnn : Addr12) : Statement (.jpV0 nnn) :=
  beq_iff_eq.mpr ((and_formatA _ 0xF nnn 0).trans (by simp; rfl))

theorem Laws.RowClaims.rnd (x : Reg) (kk : Byte) : Statement (.rnd x kk) :=
  beq_iff_eq.mpr ((and_formatXK _ 0xF _ 0 _ 0).trans (by simp; rfl))

theorem Laws.RowClaims.drw (x y : Reg) (n : Nibble) : Statement (.drw x y n) :=
  beq_iff_eq.mpr ((and_formatXY _ 0xF _ 0 _ 0 _ 0).trans (by simp; rfl))

theorem Laws.RowClaims.ldVxDt (x : Reg) : Statement (.ldVxDt x) :=
  beq_iff_eq.mpr ((and_formatXK _ 0xF _ 0 _ 0xFF).trans (by simp; rfl))

theorem Laws.RowClaims.ldDtVx (x : Reg) : Statement (.ldDtVx x) :=
  beq_iff_eq.mpr ((and_formatXK _ 0xF _ 0 _ 0xFF).trans (by simp; rfl))

theorem Laws.RowClaims.ldStVx (x : Reg) : Statement (.ldStVx x) :=
  beq_iff_eq.mpr ((and_formatXK _ 0xF _ 0 _ 0xFF).trans (by simp; rfl))

theorem Laws.RowClaims.addI (x : Reg) : Statement (.addI x) :=
  beq_iff_eq.mpr ((and_formatXK _ 0xF _ 0 _ 0xFF).trans (by simp; rfl))

theorem Laws.RowClaims.ldF (x : Reg) : Statement (.ldF x) :=
  beq_iff_eq.mpr ((and_formatXK _ 0xF _ 0 _ 0xFF).trans (by simp; rfl))

theorem Laws.RowClaims.ldB (x : Reg) : Statement (.ldB x) :=
  beq_iff_eq.mpr ((and_formatXK _ 0xF _ 0 _ 0xFF).trans (by simp; rfl))

theorem Laws.RowClaims.dump (x : Reg) : Statement (.dump x) :=
  beq_iff_eq.mpr ((and_formatXK _ 0xF _ 0 _ 0xFF).trans (by simp; rfl))

theorem Laws.RowClaims.load (x : Reg) : Statement (.load x) :=
  beq_iff_eq.mpr ((and_formatXK _ 0xF _ 0 _ 0xFF).trans (by simp; rfl))

theorem Laws.RowClaims.ldVxK (x : Reg) : Statement (.ldVxK x) :=
  beq_iff_eq.mpr ((and_formatXK _ 0xF _ 0 _ 0xFF).trans (by simp; rfl))

end Sys2Proof
end

