-- ==== Sys2Proof/Tests/Slice0.lean ====
section
/-! SUPPORT. The model's own tests. The words of the decode tests are written out from the encodings of spec/30_encoding.md R85; the
expected results of the step tests are the vectors of spec/95_test_vectors.md, named in each comment. The witnesses at the end meet the
hypotheses of the statements of Sys2Proof/Certificates/Slice0/Obligations.lean. -/

namespace Sys2Proof.Tests

open Sys2Proof.Machine

/-! ### Helpers -/

/-- The vectors' start state: reset, with a word at 0x200. -/
def boot (w : Nat) : State := State.reset.withFetchWord 16 w

/-- What a test looks at in the next state. -/
def after {α : Type} (o : Host.Outcome State Fault Refusal) (f : State → α) : Option α :=
  match o with
  | .next t => some (f t)
  | .fault _ => none
  | .refused _ => none

/-- `s` with bytes put into memory. -/
def poke (s : State) (a : Nat) (bs : List Byte) : State := s.setMem (Memory.writeMany s.mem a bs)

/-- The bytes at an address. -/
def peek (s : State) (a len : Nat) : List Byte := Memory.readMany s.mem a len

/-- What a fatal fault leaves: halt, record, program counter. -/
def faultView (s : State) : Bool × FaultRecord × Word := (s.halt, s.fault, s.pc)

/-- Some pixels, `(x, y)`. -/
def pixels (s : State) (ps : List (Fin 64 × Fin 32)) : List Bool := ps.map fun p => s.fb.pixel p.1 p.2

/-! ### WellFormed: an ill-formed term for each check (R84, R89) -/

theorem test_wellFormed_refuses_cls : (Instr.cls 5).wellFormed = false := by decide
theorem test_wellFormed_refuses_ret : (Instr.ret 1).wellFormed = false := by decide
theorem test_wellFormed_refuses_seReg : (Instr.seReg 1 2 7).wellFormed = false := by decide
theorem test_wellFormed_refuses_sneReg : (Instr.sneReg 1 2 15).wellFormed = false := by decide
theorem test_wellFormed_refuses_shr : (Instr.shr 1 2).wellFormed = false := by decide
theorem test_wellFormed_refuses_shl : (Instr.shl 3 0xA).wellFormed = false := by decide
theorem test_wellFormed_accepts_canonical :
    (Instr.cls 0).wellFormed && (Instr.ret 0).wellFormed && (Instr.seReg 1 2 0).wellFormed && (Instr.sneReg 1 2 0).wellFormed &&
    (Instr.shr 1 0).wellFormed && (Instr.shl 3 0).wellFormed && (Instr.drw 15 15 15).wellFormed = true := by decide

/-! ### Decode: one word for every constructor, from R85 (and the ignored fields of R84) -/

theorem test_decode_class0 : decode 0x00E0 = .instr (.cls 0) ∧ decode 0x00EE = .instr (.ret 0) ∧
    decode 0x05E0 = .instr (.cls 5) ∧ decode 0x00E1 = .rejected (.unknownOpcode 0x00E1) := by decide
theorem test_decode_jumps : decode 0x1ABC = .instr (.jp 0xABC) ∧ decode 0x2DEF = .instr (.call 0xDEF) ∧
    decode 0xB321 = .instr (.jpV0 0x321) := by decide
theorem test_decode_skips : decode 0x3A42 = .instr (.seImm 0xA 0x42) ∧ decode 0x4B43 = .instr (.sneImm 0xB 0x43) ∧
    decode 0x5120 = .instr (.seReg 1 2 0) ∧ decode 0x9347 = .instr (.sneReg 3 4 7) := by decide
theorem test_decode_immediate : decode 0x6AFF = .instr (.ldImm 0xA 0xFF) ∧ decode 0x7B01 = .instr (.addImm 0xB 0x01) := by decide
theorem test_decode_alu : decode 0x8120 = .instr (.ldReg 1 2) ∧ decode 0x8341 = .instr (.or 3 4) ∧
    decode 0x8562 = .instr (.and 5 6) ∧ decode 0x8783 = .instr (.xor 7 8) ∧ decode 0x89A4 = .instr (.addReg 9 0xA) := by decide
theorem test_decode_alu_flags : decode 0x8BC5 = .instr (.sub 0xB 0xC) ∧ decode 0x8DE6 = .instr (.shr 0xD 0xE) ∧
    decode 0x8F07 = .instr (.subn 0xF 0) ∧ decode 0x812E = .instr (.shl 1 2) ∧
    decode 0x812F = .rejected (.unknownOpcode 0x812F) := by decide
theorem test_decode_keys : decode 0xE29E = .instr (.skp 2) ∧ decode 0xE3A1 = .instr (.sknp 3) ∧
    decode 0xE000 = .rejected (.unknownOpcode 0xE000) := by decide
theorem test_decode_index_random_draw : decode 0xA123 = .instr (.ldI 0x123) ∧ decode 0xC30F = .instr (.rnd 3 0x0F) ∧
    decode 0xD12F = .instr (.drw 1 2 15) := by decide
theorem test_decode_timers : decode 0xF407 = .instr (.ldVxDt 4) ∧ decode 0xF515 = .instr (.ldDtVx 5) ∧
    decode 0xF618 = .instr (.ldStVx 6) ∧ decode 0xFA0A = .instr (.ldVxK 0xA) := by decide
theorem test_decode_memory : decode 0xF11E = .instr (.addI 1) ∧ decode 0xF229 = .instr (.ldF 2) ∧ decode 0xF333 = .instr (.ldB 3) ∧
    decode 0xF455 = .instr (.dump 4) ∧ decode 0xF565 = .instr (.load 5) ∧
    decode 0xFFFF = .rejected (.unknownOpcode 0xFFFF) := by decide
/-- The first byte is the high one (R56, R80). -/
theorem test_decode_bytes : decodeBytes [0xF3, 0x33, 0x00] = .instr (.ldB 3) ∧ decodeBytes [0xF3] = .rejected .truncated ∧
    decodeTableWord 16 0xF333 = some (.ldB 3) ∧ decodeTableWord 16 0xFFFF = none := by decide
theorem test_encode : encode (.drw 1 2 5) = 0xD125 ∧ encode (.call 0xABC) = 0x2ABC ∧ encodeBytes (.ldImm 3 0x2A) = [0x63, 0x2A] := by
  decide

/-! ### Steps, family by family -/

/-- DV-40-1. -/
theorem test_cls : after (step { boot 0x00E0 with fb := ((boot 0).fb.xorPixel 0 0 true).xorPixel 63 31 true })
    (fun t => (pixels t [(0, 0), (63, 31)], t.dirty, t.pc)) = some ([false, false], true, 0x202) := by decide
/-- DV-40-4. -/
theorem test_ret : after (step { boot 0x00EE with sp := 2, stack := ((boot 0).stack.set 0 0x206).set 1 0x30A })
    (fun t => (t.sp.val, t.pc, t.stack[1])) = some (1, 0x30A, 0x30A) := by decide
/-- EX6a. -/
theorem test_ret_underflow : after (step (boot 0x00EE)) (fun t => (faultView t, t.sp.val)) =
    some ((true, ⟨.stackUnderflow, 0, 0x00EE⟩, 0x200), 0) := by decide
/-- DV-40-6. -/
theorem test_jp : after (step (boot 0x1ABC)) (·.pc) = some 0xABC := by decide
/-- DV-40-10. -/
theorem test_call : after (step (poke { boot 0 with sp := 15, pc := 0x7FE } 0x7FE [0x23, 0x00]))
    (fun t => (t.stack[15], t.sp.val, t.pc)) = some (0x800, 16, 0x300) := by decide
/-- DV-40-11. -/
theorem test_call_overflow : after (step { boot 0x2300 with sp := 16 }) (fun t => (faultView t, t.sp.val)) =
    some ((true, ⟨.stackOverflow, 0x202, 0x2300⟩, 0x200), 16) := by decide
/-- DV-41-1, DV-41-11: a taken skip past the end does not fault. -/
theorem test_seImm : after (step ((boot 0x3342).setV 3 0x42)) (·.pc) = some 0x204 ∧
    after (step (poke { boot 0 with pc := 0xFFC } 0xFFC [0x30, 0x00])) (·.pc) = some 0x1000 := by decide
/-- DV-41-3, DV-41-4. -/
theorem test_sneImm : after (step ((boot 0x4342).setV 3 0x42)) (·.pc) = some 0x202 ∧
    after (step ((boot 0x4342).setV 3 0x43)) (·.pc) = some 0x204 := by decide
/-- DV-41-6, DV-41-8. -/
theorem test_seReg : after (step (((boot 0x5120).setV 1 7).setV 2 8)) (·.pc) = some 0x202 ∧
    after (step (((boot 0x5127).setV 1 7).setV 2 7)) (·.pc) = some 0x204 := by decide
/-- DV-41-9, DV-41-10. -/
theorem test_sneReg : after (step (((boot 0x9120).setV 1 7).setV 2 8)) (·.pc) = some 0x204 ∧
    after (step (((boot 0x9120).setV 1 7).setV 2 7)) (·.pc) = some 0x202 := by decide
/-- DV-42-2. -/
theorem test_ldImm : after (step (boot 0x6F07)) (fun t => (t.getV 15, t.pc)) = some (7, 0x202) := by decide
/-- DV-42-3: no carry flag. -/
theorem test_addImm : after (step ((boot 0x7101).setV 1 0xFF)) (fun t => (t.getV 1, t.getV 15, t.pc)) = some (0, 0, 0x202) := by decide

/-- The operands of DV-43-2 to DV-43-4. -/
def logicStart (w : Nat) : State := (((boot w).setV 1 0xF0).setV 2 0x3C).setV 15 1

/-- DV-43-1. -/
theorem test_ldReg : after (step ((((boot 0x8120).setV 1 1).setV 2 0xAB).setV 15 1)) (fun t => (t.getV 1, t.getV 2, t.getV 15)) =
    some (0xAB, 0xAB, 1) := by decide
/-- DV-43-2. -/
theorem test_or : after (step (logicStart 0x8121)) (fun t => (t.getV 1, t.getV 15)) = some (0xFC, 1) := by decide
/-- DV-43-3. -/
theorem test_and : after (step (logicStart 0x8122)) (fun t => (t.getV 1, t.getV 15)) = some (0x30, 1) := by decide
/-- DV-43-4. -/
theorem test_xor : after (step (logicStart 0x8123)) (fun t => (t.getV 1, t.getV 15)) = some (0xCC, 1) := by decide
/-- EX1a, EX1b. -/
theorem test_addReg : after (step (((boot 0x8124).setV 1 0xFF).setV 2 1)) (fun t => (t.getV 1, t.getV 15, t.pc)) = some (0, 1, 0x202) ∧
    after (step (((boot 0x8124).setV 1 0x80).setV 2 0x7F)) (fun t => (t.getV 1, t.getV 15)) = some (0xFF, 0) := by decide
/-- DV-43-9, DV-43-10: `x = 15` keeps the result, `y = 15` reads the old `VF`. -/
theorem test_addReg_flag_register : after (step (((boot 0x8F14).setV 15 0x10).setV 1 0x20)) (·.getV 15) = some 0x30 ∧
    after (step (((boot 0x81F4).setV 1 0xF0).setV 15 0x20)) (fun t => (t.getV 1, t.getV 15)) = some (0x10, 1) := by decide
/-- EX2a, EX2b. -/
theorem test_sub : after (step (((boot 0x8125).setV 1 5).setV 2 5)) (fun t => (t.getV 1, t.getV 15)) = some (0, 1) ∧
    after (step (((boot 0x8125).setV 1 5).setV 2 6)) (fun t => (t.getV 1, t.getV 15)) = some (0xFF, 0) := by decide
/-- DV-43-14, DV-43-16. -/
theorem test_shr : after (step (((boot 0x8126).setV 1 0x81).setV 2 0x7E)) (fun t => (t.getV 1, t.getV 2, t.getV 15)) =
    some (0x40, 0x7E, 1) ∧ after (step ((boot 0x8F06).setV 15 5)) (·.getV 15) = some 2 := by decide
/-- EX2e, EX2f. -/
theorem test_subn : after (step (((boot 0x8127).setV 1 6).setV 2 5)) (fun t => (t.getV 1, t.getV 15)) = some (0xFF, 0) ∧
    after (step (((boot 0x8127).setV 1 1).setV 2 0x10)) (fun t => (t.getV 1, t.getV 15)) = some (0x0F, 1) := by decide
/-- EX3c, DV-43-19. -/
theorem test_shl : after (step ((boot 0x810E).setV 1 0x81)) (fun t => (t.getV 1, t.getV 15)) = some (2, 1) ∧
    after (step ((boot 0x8F0E).setV 15 0x81)) (·.getV 15) = some 2 := by decide

/-- DV-44-1, DV-44-2. -/
theorem test_skp : after (step { (boot 0xE29E).setV 2 0x0A with key := (boot 0).key.set 10 true }) (·.pc) = some 0x204 ∧
    after (step { (boot 0xE29E).setV 2 0x0A with key := (boot 0).key.set 11 true }) (·.pc) = some 0x202 := by decide
/-- DV-44-5. -/
theorem test_skp_range : after (step ((boot 0xE29E).setV 2 0x10)) faultView = some (true, ⟨.addressError, 16, 0xE29E⟩, 0x200) := by decide
/-- DV-44-3, DV-44-4. -/
theorem test_sknp : after (step { (boot 0xE2A1).setV 2 0x0A with key := (boot 0).key.set 10 true }) (·.pc) = some 0x202 ∧
    after (step ((boot 0xE2A1).setV 2 0x0A)) (·.pc) = some 0x204 := by decide
/-- DV-44-6. -/
theorem test_sknp_range : after (step ((boot 0xE2A1).setV 2 0xFF)) faultView = some (true, ⟨.addressError, 255, 0xE2A1⟩, 0x200) := by
  decide
/-- DV-45-2. -/
theorem test_ldI : after (step { boot 0xA000 with i := 0x1234 }) (fun t => (t.i, t.pc)) = some (0, 0x202) := by decide
/-- DV-45-4. -/
theorem test_jpV0 : after (step ((boot 0xBFFF).setV 0 0xFF)) (·.pc) = some 0x10FE := by decide
/-- DV-45-6 and DV-45-8, with the draw 0xA7 handed to the meaning. -/
theorem test_rnd_mask : (rndWith 0xA7 3 0x0F (boot 0xC30F)).getV 3 = 0x07 ∧
    (let t := rndWith 0xA7 3 0xFF ((boot 0xC3FF).setV 15 1); (t.getV 3, t.getV 15)) = (0xA7, 1) := by decide
/-- The step hands it the free byte of this draw. -/
theorem test_rnd_step : step (boot 0xC30F) = exec (.rnd 3 0x0F) (boot 0xC30F) := rfl

/-- DV-46-1. -/
def drawStart : State := { poke (((boot 0xD122).setV 1 62).setV 2 31) 0x300 [0xC0, 0x80] with i := 0x300 }

theorem test_drw : after (step drawStart) (fun t =>
    (pixels t [(62, 31), (63, 31), (62, 0), (0, 31), (63, 0), (62, 30)], t.getV 15, t.dirty, t.pc)) =
    some ([true, true, true, false, false, false], 0, true, 0x202) := by decide
/-- DV-46-11. -/
theorem test_drw_range : after (step { boot 0xD003 with i := 0xFFE }) (fun t => (faultView t, t.dirty)) =
    some ((true, ⟨.addressError, 4096, 0xD003⟩, 0x200), false) := by decide

/-- DV-47-1. -/
theorem test_ldVxDt : after (step { boot 0xF407 with dt := 0x2A }) (fun t => (t.getV 4, t.dt, t.pc)) = some (0x2A, 0x2A, 0x202) := by
  decide
/-- DV-47-2. -/
theorem test_ldDtVx : after (step ((boot 0xF415).setV 4 0xFF)) (fun t => (t.dt, t.st)) = some (255, 0) := by decide
/-- DV-47-3, DV-47-4. -/
theorem test_ldStVx : after (step ((boot 0xF418).setV 4 1)) (fun t => (t.st, t.dt, tone t)) = some (1, 0, true) ∧
    after (step { boot 0xF418 with st := 9 }) (fun t => (t.st, tone t)) = some (0, false) := by decide
/-- DV-48-1, DV-48-2. -/
theorem test_addI : after (step { (boot 0xF11E).setV 1 1 with i := 0x0FFF }) (fun t => (t.i, t.getV 15)) = some (0x1000, 0) ∧
    after (step { (boot 0xF11E).setV 1 2 with i := 0xFFFF }) (·.i) = some 1 := by decide
/-- DV-48-3, DV-48-6. -/
theorem test_ldF : after (step ((boot 0xF129).setV 1 0x0A)) (·.i) = some 50 ∧
    after (step ((boot 0xF129).setV 1 0xFF)) (fun t => (t.i, t.halt)) = some (1275, false) := by decide
/-- EX4a, DV-48-7. -/
theorem test_ldB : after (step { (boot 0xF333).setV 3 157 with i := 0x300 }) (peek · 0x300 3) = some [1, 5, 7] ∧
    after (step { (boot 0xF133).setV 1 100 with i := 0xFFD }) (peek · 0xFFD 3) = some [1, 0, 0] := by decide
/-- DV-48-8. -/
theorem test_ldB_range : after (step { (boot 0xF133).setV 1 100 with i := 0xFFE }) (fun t => (faultView t, peek t 0xFFE 2)) =
    some ((true, ⟨.addressError, 4096, 0xF133⟩, 0x200), [0, 0]) := by decide
/-- DV-48-10. -/
theorem test_dump : after (step { ((boot 0xF055).setV 0 0xAA).setV 1 0xBB with i := 0x300 }) (fun t => (peek t 0x300 2, t.i)) =
    some ([0xAA, 0], 0x300) := by decide
/-- DV-48-12. -/
theorem test_dump_range : after (step { (boot 0xFF55).setV 0 1 with i := 0xFF1 }) (fun t => (faultView t, peek t 0xFF1 1)) =
    some ((true, ⟨.addressError, 4096, 0xFF55⟩, 0x200), [0]) := by decide
/-- DV-48-13: glyph 0 of the default font; `V5` stays. -/
theorem test_load : after (step { (boot 0xF465).setV 5 0x99 with i := 0 }) (fun t => (t.v.toList.take 6, t.i)) =
    some ([0xF0, 0x90, 0x90, 0x90, 0xF0, 0x99], 0) := by decide
/-- DV-48-15. -/
theorem test_load_range : after (step { boot 0xF065 with i := 0x1000 }) faultView = some (true, ⟨.addressError, 0x1000, 0xF065⟩, 0x200) := by
  decide

/-! ### Wait for key, unknown opcodes, fetch, host operations -/

/-- DV-49-1. -/
theorem test_ldVxK : after (step (boot 0xF30A)) (fun t => (t.wait, t.waitX, t.pc, cycleOutcome (boot 0xF30A))) =
    some (true, 3, 0x200, some .waiting) := by decide
/-- DV-49-7: the lowest newly pressed key; DV-49-5: a held key does not complete the wait. -/
theorem test_pending : after (step (setKey 2 true (setKey 9 true { boot 0 with wait := true, waitX := 3 })))
    (fun t => (t.getV 3, t.wait, t.pc)) = some (2, false, 0x202) ∧
    after (step { boot 0 with wait := true, waitX := 3, key := (boot 0).key.set 4 true, keyPrev := (boot 0).key.set 4 true })
    (fun t => (t.getV 3, t.wait, t.pc)) = some (0, true, 0x200) := by decide
/-- DV-49-12, DV-49-13. -/
theorem test_unknown : cycleOutcome (boot 0) = some (.unknown 0 0x200) ∧ after (step (boot 0)) (·.pc) = some 0x202 ∧
    after (step { boot 0 with strict := true }) faultView = some (true, ⟨.unknownOpcode, 0x200, 0⟩, 0x200) := by decide
/-- DV-60-1, DV-60-4. -/
theorem test_fetch : after (step (poke { boot 0 with pc := 0xFFE } 0xFFE [0x12, 0x00])) (·.pc) = some 0x200 ∧
    after (step (poke { boot 0 with pc := 0x201 } 0x201 [0x63, 0x2A])) (fun t => (t.getV 3, t.pc)) = some (0x2A, 0x203) := by decide
/-- DV-60-2, DV-60-3. -/
theorem test_fetch_range : after (step { boot 0 with pc := 0xFFF }) faultView = some (true, ⟨.addressError, 4096, 0⟩, 0xFFF) ∧
    after (step { boot 0 with pc := 0x1000 }) faultView = some (true, ⟨.addressError, 0x1000, 0⟩, 0x1000) := by decide
/-- DV-47-5 to DV-47-7. -/
theorem test_tick : let t := tickTimers { boot 0 with dt := 0, st := 255, halt := true }; (t.dt, t.st, t.halt) = (0, 254, true) := by decide
/-- DV-70-1, in part: the second byte of glyph 3 is 0x10 again, `KEY` is kept. -/
theorem test_hostReset : let t := hostReset (setKey 3 true (poke { boot 0x1200 with halt := true, sp := 4, dt := 7 } 0x10 [0x77]));
    (peek t 0x10 1, peek t 0x200 2, t.key[3], t.halt, t.dt, t.sp.val) = ([0x10], [0, 0], true, false, 0, 0) := by decide
/-- A machine with another `FONT` has that table after reset, whatever the program wrote there (R30, R200); with the default one it is
`State.reset` again (R37). -/
theorem test_hostReset_font :
    let t := hostReset (poke { boot 0x1200 with font := defaultFont.set 1 0x77, strict := true } 0 [0x12, 0x34]);
    (peek t 0 3, peek t 80 1, t.font[1], t.strict, Memory.wf t.mem) = ([0xF0, 0x77, 0x90], [0], 0x77, true, true) := by decide
theorem test_hostReset_default : hostReset State.reset = State.reset :=
  (congrArg (fun r : State => { r with key := State.reset.key, rndCount := 0 }) resetState_default : _)
/-- DV-70-2. -/
theorem test_loadProgram : let r := loadProgram [0x12, 0x00] State.reset; (peek r.1 0x200 2, r.2, r.1.halt) = ([0x12, 0], .ok, false) := by
  decide

/-! ### Witnesses: concrete states and operands that meet the hypotheses of each statement, at the boundaries of each clause -/

theorem witness_HostResetValues : (80 ≤ 80 ∧ 80 < 4096) ∧ (80 ≤ 4095 ∧ 4095 < 4096) := by decide

theorem witness_EncodeOfDecode : decode 0x0FE0 = .instr (.cls 15) ∧ decode 0xFF65 = .instr (.load 15) := by decide

theorem witness_UnknownOpcodesAreExactly : decode 0x0000 = .rejected (.unknownOpcode 0x0000) ∧
    decode 0x8008 = .rejected (.unknownOpcode 0x8008) ∧ decode 0xE09F = .rejected (.unknownOpcode 0xE09F) ∧
    decode 0xF066 = .rejected (.unknownOpcode 0xF066) := by decide

theorem witness_DecoderIsTheOpcodeTable : decode 0x800E = .instr (.shl 0 0) ∧ decode 0x800F = .rejected (.unknownOpcode 0x800F) := by decide

theorem witness_IgnoredFieldsHaveNoEffect : 0 < ({ boot 0x05EE with sp := 1 } : State).sp.val ∧
    0 < ({ boot 0x05EE with sp := 16 } : State).sp.val ∧ (Instr.row (.cls 5)).mnemonic = "CLS" ∧
    (Instr.row (.seReg 1 2 7)).mnemonic = "SE_Vx__Vy" ∧ (Instr.row (.shl 1 7)).mnemonic = "SHL_Vx" := by decide

theorem boot_fetches (w : Nat) : (boot w).Fetches := ⟨rfl, rfl, by simp [boot, State.withFetchWord, State.reset]⟩

/-- The last address an instruction can be fetched from. -/
def topStart : State := poke { boot 0 with pc := 0xFFE } 0xFFE [0x12, 0x00]

theorem topStart_fetches : topStart.Fetches := ⟨rfl, rfl, by decide⟩

theorem witness_StepRunsTheDecodedInstruction :
    ((boot 0x1ABC).Fetches ∧ decode (boot 0x1ABC).wordAtPc = .instr (.jp 0xABC)) ∧
    (topStart.Fetches ∧ decode topStart.wordAtPc = .instr (.jp 0x200)) :=
  ⟨⟨boot_fetches _, by decide⟩, ⟨topStart_fetches, by decide⟩⟩

theorem witness_HaltedCycleChangesNothing : ({ boot 0x1ABC with halt := true } : State).halt = true := rfl

theorem witness_FetchOutOfRangeFaults :
    (let s : State := { boot 0 with pc := 0xFFF }; s.halt = false ∧ s.wait = false ∧ 4095 ≤ s.pc.toNat) ∧
    (let s : State := { boot 0 with pc := 0x1000 }; s.halt = false ∧ s.wait = false ∧ 4095 ≤ s.pc.toNat) ∧
    (let s : State := { boot 0 with pc := 0xFFFF }; s.halt = false ∧ s.wait = false ∧ 4095 ≤ s.pc.toNat) := by decide

theorem witness_UnknownOpcodePolicies :
    ((boot 0x812F).Fetches ∧ decode (boot 0x812F).wordAtPc = .rejected (.unknownOpcode 0x812F) ∧ (boot 0x812F).strict = false) ∧
    (let s : State := { boot 0x812F with strict := true };
      s.Fetches ∧ decode s.wordAtPc = .rejected (.unknownOpcode 0x812F) ∧ s.strict = true) :=
  ⟨⟨boot_fetches _, by decide, rfl⟩, ⟨boot_fetches 0x812F, by decide, rfl⟩⟩

theorem witness_CycleLeavesHostStateAlone :
    (∃ t, step { (boot 0xF415).setV 4 7 with dirty := true } = .next t) ∧ (∃ t, step ((boot 0xF418).setV 4 7) = .next t) :=
  ⟨⟨_, rfl⟩, ⟨_, rfl⟩⟩

theorem witness_ProgramCounterAfterCycle :
    ((boot 0x00EE).Fetches ∧ ∃ t, step (boot 0x00EE) = .next t ∧ t.halt = true) ∧
    ((boot 0x1ABC).Fetches ∧ decode (boot 0x1ABC).wordAtPc = .instr (.jp 0xABC) ∧ ∃ t, step (boot 0x1ABC) = .next t ∧ t.halt = false) ∧
    ((boot 0).Fetches ∧ decode (boot 0).wordAtPc = .rejected (.unknownOpcode 0) ∧ ∃ t, step (boot 0) = .next t ∧ t.halt = false) :=
  ⟨⟨boot_fetches _, _, rfl, rfl⟩, ⟨boot_fetches _, by decide, _, rfl, rfl⟩, ⟨boot_fetches _, by decide, _, rfl, rfl⟩⟩

theorem witness_ReturnResult : 0 < ({ boot 0 with sp := 1 } : State).sp.val ∧ 0 < ({ boot 0 with sp := 16 } : State).sp.val ∧
    (boot 0).sp.val = 0 := by decide

theorem witness_CallResult : (boot 0).sp.val < 16 ∧ ({ boot 0 with sp := 15 } : State).sp.val < 16 ∧
    ({ boot 0 with sp := 16 } : State).sp.val = 16 := by decide

theorem witness_ReturnUndoesCall : ∃ t u : State, ({ boot 0 with sp := 15 } : State).sp.val < 16 ∧
    exec (.call 0x300) { boot 0 with sp := 15 } = .next t ∧ u.stack = t.stack ∧ u.sp = t.sp :=
  ⟨_, _, by decide, rfl, rfl, rfl⟩

/-- The flag clauses ask `x ≠ 15`. -/
theorem witness_AddSubtractResults : (0 : Reg) ≠ 15 ∧ (14 : Reg) ≠ 15 := by decide

theorem witness_ShiftResults : (0 : Reg) ≠ 15 ∧ (14 : Reg) ≠ 15 := by decide

theorem witness_KeySkipResults : ((boot 0).getV 2).toNat < 16 ∧ (((boot 0).setV 2 15).getV 2).toNat < 16 ∧
    16 ≤ (((boot 0).setV 2 16).getV 2).toNat ∧ 16 ≤ (((boot 0).setV 2 255).getV 2).toNat := by decide

theorem witness_RandomResult : (0x0F : Byte).getLsbD 4 = false ∧ (0x0F : Byte).getLsbD 3 = true := by decide

theorem witness_DrawResult : (0 : Nibble).toNat = 0 ∧
    ({ boot 0 with i := 0xFFE } : State).i.toNat + (2 : Nibble).toNat - 1 < 4096 ∧
    ({ boot 0 with i := 0 } : State).i.toNat + (15 : Nibble).toNat - 1 < 4096 := by decide

theorem witness_DrawOutOfRangeFaults : (0 < (3 : Nibble).toNat ∧ 4096 ≤ ({ boot 0 with i := 0xFFE } : State).i.toNat + (3 : Nibble).toNat - 1) ∧
    (0 < (1 : Nibble).toNat ∧ 4096 ≤ ({ boot 0 with i := 0xFFFF } : State).i.toNat + (1 : Nibble).toNat - 1) := by decide

/-- The coordinates' registers are not `V[15]`, so the first draw leaves them. -/
theorem witness_DrawTwiceRestores : drawStart.i.toNat + (2 : Nibble).toNat - 1 < 4096 ∧
    after (exec (.drw 1 2 2) drawStart) (fun t => (t.getV 1, t.getV 2)) = some (drawStart.getV 1, drawStart.getV 2) := by decide

theorem witness_StoreBcdResult :
    (let s : State := { boot 0xF133 with i := 0xFFD }; Memory.wf s.mem = true ∧ s.i.toNat + 2 < 4096) ∧
    (let s : State := { boot 0xF133 with i := 0xFFE }; Memory.wf s.mem = true ∧ 4094 ≤ s.i.toNat) := by decide

theorem witness_RegisterDumpResult :
    (let s : State := { boot 0xFF55 with i := 0xFF0 }; Memory.wf s.mem = true ∧ s.i.toNat + (15 : Reg).toNat < 4096) ∧
    (let s : State := { boot 0xFF55 with i := 0xFF1 }; Memory.wf s.mem = true ∧ 4096 ≤ s.i.toNat + (15 : Reg).toNat) ∧
    (let s : State := { boot 0xF055 with i := 0xFFF }; Memory.wf s.mem = true ∧ s.i.toNat + (0 : Reg).toNat < 4096) := by decide

theorem witness_RegisterLoadResult :
    ({ boot 0 with i := 0xFF0 } : State).i.toNat + (15 : Reg).toNat < 4096 ∧
    4096 ≤ ({ boot 0 with i := 0xFF1 } : State).i.toNat + (15 : Reg).toNat ∧
    (4 : Reg).toNat ≤ (4 : Reg).toNat ∧ (4 : Reg).toNat < (5 : Reg).toNat := by decide

theorem witness_DumpThenLoadRoundTrips : ∃ t u : State, Memory.wf ({ boot 0 with i := 0xFF0 } : State).mem = true ∧
    ({ boot 0 with i := 0xFF0 } : State).i.toNat + (15 : Reg).toNat < 4096 ∧
    exec (.dump 15) { boot 0 with i := 0xFF0 } = .next t ∧ u.mem = t.mem ∧ u.i = t.i :=
  ⟨_, _, by decide, by decide, rfl, rfl, rfl⟩

/-- DV-48-16: the dumped word stands where the next cycle fetches. -/
theorem witness_StoreIsSeenByTheNextFetch :
    let s : State := { (boot 0xF155).setV 0 0x12 with i := 0x202 };
    Memory.wf s.mem = true ∧ 1 ≤ (1 : Reg).toNat ∧ s.i.toNat + (1 : Reg).toNat < 4096 ∧
    after (step s) (fun t => (t.pc == s.i, t.halt, t.wait)) = some (true, false, false) := by decide

theorem witness_CanonicalMemoryIsUnique :
    Memory.wf (Memory.write [] 0x300 1) = true ∧ Memory.wf (Memory.write (Memory.write [] 0x300 2) 0x300 1) = true ∧
    ∀ a, Memory.read (Memory.write [] 0x300 1) a = Memory.read (Memory.write (Memory.write [] 0x300 2) 0x300 1) a :=
  ⟨by decide, by decide, fun _ => rfl⟩

/-- A pending wait that sampled key 4 as held, with key 4 still held and two keys newly pressed. -/
def pendingStart : State :=
  { boot 0xF30A with wait := true, waitX := 3, keyPrev := (boot 0).key.set 4 true,
                     key := (((boot 0).key.set 4 true).set 0 true).set 15 true }

theorem witness_PendingWaitResolves :
    (let s : State := { pendingStart with keyPrev := pendingStart.key };
      s.halt = false ∧ s.wait = true ∧ ∀ k : Fin 16, ¬(s.key[k] = true ∧ s.keyPrev[k] = false)) ∧
    (pendingStart.halt = false ∧ pendingStart.wait = true ∧ pendingStart.key[(0 : Fin 16)] = true ∧
      pendingStart.keyPrev[(0 : Fin 16)] = false ∧
      ∀ j : Fin 16, j < 0 → ¬(pendingStart.key[j] = true ∧ pendingStart.keyPrev[j] = false)) := by decide

theorem witness_PendingWaitResolves_last_key :
    let s : State := { boot 0xF30A with wait := true, waitX := 3, key := (boot 0).key.set 15 true };
    s.halt = false ∧ s.wait = true ∧ s.key[(15 : Fin 16)] = true ∧ s.keyPrev[(15 : Fin 16)] = false ∧
    ∀ j : Fin 16, j < 15 → ¬(s.key[j] = true ∧ s.keyPrev[j] = false) := by decide

theorem witness_WaitForKeyCompletes : (boot 0xF30A).halt = false ∧ (boot 0xF30A).key[(0 : Fin 16)] = false ∧
    (boot 0xF30A).key[(15 : Fin 16)] = false := by decide

theorem witness_InstructionFaultsExactlyWhen :
    ((boot 0).halt = false ∧ faultCause (boot 0) (.ret 0) = some (.stackUnderflow, 0)) ∧
    faultCause { boot 0 with i := 0xFFE } (.ldB 0) = some (.addressError, 4096) ∧
    faultCause { boot 0 with i := 0xFFD } (.ldB 0) = none ∧ faultCause { boot 0 with i := 0x1000 } (.drw 0 0 0) = none ∧
    faultCause { boot 0 with i := 0xFF1 } (.load 15) = some (.addressError, 4096) ∧
    faultCause { boot 0 with sp := 16 } (.call 0x300) = some (.stackOverflow, 0x202) := by decide

theorem witness_FatalFaultIsPrecise : ∃ t, step (boot 0x00EE) = .next t ∧ (boot 0x00EE).halt = false ∧ t.halt = true :=
  ⟨_, rfl, rfl, rfl⟩

theorem witness_EveryInstructionKeepsItsFrame : (∃ t, exec (.ret 0) (boot 0) = .next t) ∧ (∃ t, exec (.drw 1 2 2) drawStart = .next t) :=
  ⟨⟨_, rfl⟩, ⟨_, rfl⟩⟩

theorem witness_LoadProgramResult : Memory.wf State.reset.mem = true ∧ ([] : List Byte).length ≤ 3584 ∧
    (List.replicate 3584 (0xAB : Byte)).length ≤ 3584 ∧ 3584 < (List.replicate 3585 (0xAB : Byte)).length :=
  ⟨rfl, Nat.zero_le _, Nat.le_of_eq List.length_replicate, Nat.lt_of_lt_of_eq (by decide) List.length_replicate.symm⟩

theorem witness_OnlyResetLeavesTheHalt :
    ∃ t, ({ boot 0 with halt := true } : State).halt = true ∧ HostOp.reset ∉ [HostOp.cycle, .tickTimers, .setKey 3 true, .clearDirty] ∧
    runOps [.cycle, .tickTimers, .setKey 3 true, .clearDirty] { boot 0 with halt := true } = .next t :=
  ⟨_, rfl, by decide, rfl⟩

theorem witness_ParkedMachineStaysParked : (boot 0x1200).Parked := ⟨boot_fetches _, 0x200, by decide, by decide⟩

theorem witness_StepKeepsTheInvariant : ∃ t, (boot 0xF30A).Inv ∧ step (boot 0xF30A) = .next t :=
  ⟨_, ⟨by decide, by decide, by decide, fun _ => rfl, fun h => (by cases h), fun h => (by cases h)⟩, rfl⟩

theorem witness_RunsKeepTheInvariant : (boot 0x1200).Inv :=
  ⟨rfl, by decide, by decide, fun _ => rfl, fun h => (by cases h), fun h => (by cases h)⟩

end Sys2Proof.Tests
end

section
/-! PROOFS. Clear-screen, return, jump, call and set I (spec/40_clear_return_jump_call.md, R100 to R103 and R122): the arms of `exec`, the
frame of each state operation they use, and the claims about their results. -/

namespace Sys2Proof.Machine

/-! ### The arms of `exec` -/

theorem exec_cls_eq (ign : Nibble) (s : State) : exec (.cls ign) s = .next s.clearScreen.advance := rfl
theorem exec_ret_eq (ign : Nibble) (s : State) : exec (.ret ign) s = execRet ign s := rfl
theorem exec_jp_eq (nnn : Addr12) (s : State) : exec (.jp nnn) s = .next (s.setPc (addrImm nnn)) := rfl
theorem exec_call_eq (nnn : Addr12) (s : State) : exec (.call nnn) s = execCall nnn s := rfl
theorem exec_ldI_eq (nnn : Addr12) (s : State) : exec (.ldI nnn) s = .next (s.setI (addrImm nnn)).advance := rfl

/-! ### Frames of the state operations -/

/-- No frame speaks of `PC`, so setting it keeps every frame. -/
theorem OnlyChanges.setPc {parts : List Part} {regs : List Reg} {s t : State} (h : OnlyChanges parts regs s t) (w : Word) :
    OnlyChanges parts regs s (t.setPc w) := by
  obtain ⟨hparts, hregs⟩ := h
  refine ⟨fun p hp => ?_, hregs⟩
  have hsame := hparts p hp
  cases p <;> exact hsame

/-- The normal advance keeps every frame. -/
theorem OnlyChanges.advance {parts : List Part} {regs : List Reg} {s t : State} (h : OnlyChanges parts regs s t) :
    OnlyChanges parts regs s t.advance :=
  h.setPc (t.pc + 2)

/-- Setting `I` changes the index register only (R122). -/
theorem State.setI_onlyChanges (s : State) (w : Word) : OnlyChanges [.index] [] s (s.setI w) := by
  refine ⟨fun p hp => ?_, fun _ _ => rfl⟩
  have hsame := p.same_refl s
  cases p with
  | index => simp at hp
  | _ => exact hsame

/-- Clearing the screen changes the pixels and `DIRTY` only (R100). -/
theorem State.clearScreen_onlyChanges (s : State) : OnlyChanges [.pixels, .dirty] [] s s.clearScreen := by
  refine ⟨fun p hp => ?_, fun _ _ => rfl⟩
  have hsame := p.same_refl s
  cases p with
  | pixels => simp at hp
  | dirty => simp at hp
  | _ => exact hsame

/-- New entries, a new number of them and a new `PC`, as call and return give, change the stack only (R27). -/
theorem State.withStackPc_onlyChanges (s : State) (stack : Vector Word 16) (sp : Fin 17) (pc : Word) :
    OnlyChanges [.stack] [] s { s with stack := stack, sp := sp, pc := pc } := by
  refine ⟨fun p hp => ?_, fun _ _ => rfl⟩
  have hsame := p.same_refl s
  cases p with
  | stack => simp at hp
  | _ => exact hsame

/-- A cleared screen has no pixel set. -/
theorem State.pixel_clearScreen (s : State) (x : Fin 64) (y : Fin 32) : s.clearScreen.fb.pixel x y = false := by
  simp [Framebuffer.pixel]

/-! ### The obligations -/

/-- Settles O16: the successor is the cleared screen, advanced. -/
theorem clearScreenResult : Obligations.ClearScreenResult := fun ign s =>
  ⟨s.clearScreen.advance, exec_cls_eq ign s, s.pixel_clearScreen, rfl, rfl, s.clearScreen_onlyChanges.advance⟩

/-- Settles O17: a pop writes no entry, so those below the new top are kept, and it fails exactly at depth 0. -/
theorem returnResult : Obligations.ReturnResult := by
  refine fun ign s => ⟨fun hpos => ?_, fun hzero => ?_⟩
  · exact ⟨_, (exec_ret_eq ign s).trans (execRet_of_pos hpos), rfl, rfl, fun _ _ => rfl, s.withStackPc_onlyChanges _ _ _⟩
  · exact (exec_ret_eq ign s).trans (execRet_of_zero hzero)

/-- Settles O18: the zero-extended address keeps its value, and neither instruction can fault. -/
theorem jumpAndSetIndexResults : Obligations.JumpAndSetIndexResults := by
  refine fun nnn s => ⟨?jump, ?setIndex⟩
  case jump =>
    exact ⟨_, exec_jp_eq nnn s, toNat_addrImm nnn, (OnlyChanges.refl [] [] s).setPc _⟩
  case setIndex =>
    exact ⟨_, exec_ldI_eq nnn s, toNat_addrImm nnn, rfl, (s.setI_onlyChanges _).advance⟩

/-- Settles O19: a push writes the entry at `SP`, which lies above every entry held, and it fails exactly at depth 16. -/
theorem callResult : Obligations.CallResult := by
  refine fun nnn s => ⟨fun hroom => ?_, fun hfull => ?_⟩
  · refine ⟨_, (exec_call_eq nnn s).trans (execCall_of_lt hroom), toNat_addrImm nnn, rfl, ?newest, ?below,
      s.withStackPc_onlyChanges _ _ _⟩
    case newest => exact Vector.getElem_set_self hroom
    case below => exact fun k hk => Vector.getElem_set_ne hroom k.isLt (Nat.ne_of_gt hk)
  · exact (exec_call_eq nnn s).trans (execCall_of_full hfull)

end Sys2Proof.Machine
end

section
/-! PROOFS. The four register skips (spec/41_skips.md, R104 to R107): what a skip does whatever its condition, the arms of `exec`, and the
claim about their results. -/

namespace Sys2Proof.Machine

/-! ### The skip itself -/

/-- A skip, taken or not, changes nothing a frame speaks of. -/
theorem State.skipIf_onlyChanges (s : State) (taken : Bool) : OnlyChanges [] [] s (s.skipIf taken) :=
  (OnlyChanges.refl [] [] s).setPc _

/-- The result of every instruction that ends in a skip: `P` is the spec's comparison, `taken` the Boolean test that decides it. -/
theorem exec_result_of_eq_skipIf {instr : Instr} {s : State} {taken : Bool} {P : Prop} [Decidable P]
    (hexec : exec instr s = .next (s.skipIf taken)) (htaken : taken = true ↔ P) :
    ∃ t, exec instr s = .next t ∧ t.pc = (if P then s.pc + 4 else s.pc + 2) ∧ OnlyChanges [] [] s t := by
  refine ⟨s.skipIf taken, hexec, (s.skipIf_pc taken).trans ?pc, s.skipIf_onlyChanges taken⟩
  by_cases hP : P
  · rw [if_pos hP, if_pos (htaken.mpr hP)]
  · rw [if_neg hP, if_neg (mt htaken.mp hP)]

/-! ### The arms of `exec` -/

theorem exec_seImm_eq (x : Reg) (kk : Byte) (s : State) : exec (.seImm x kk) s = .next (s.skipIf (s.getV x == kk)) := rfl
theorem exec_sneImm_eq (x : Reg) (kk : Byte) (s : State) : exec (.sneImm x kk) s = .next (s.skipIf (s.getV x != kk)) := rfl
theorem exec_seReg_eq (x y : Reg) (ign : Nibble) (s : State) :
    exec (.seReg x y ign) s = .next (s.skipIf (s.getV x == s.getV y)) := rfl
theorem exec_sneReg_eq (x y : Reg) (ign : Nibble) (s : State) :
    exec (.sneReg x y ign) s = .next (s.skipIf (s.getV x != s.getV y)) := rfl

/-! ### The obligation -/

/-- Settles O21: each instruction is a skip whose Boolean test decides the rule's comparison. -/
theorem registerSkipResults : Obligations.RegisterSkipResults := by
  refine fun x y kk ign s => ⟨?seImm, ?sneImm, ?seReg, ?sneReg⟩
  case seImm => exact exec_result_of_eq_skipIf (exec_seImm_eq x kk s) beq_iff_eq
  case sneImm => exact exec_result_of_eq_skipIf (exec_sneImm_eq x kk s) bne_iff_ne
  case seReg => exact exec_result_of_eq_skipIf (exec_seReg_eq x y ign s) beq_iff_eq
  case sneReg => exact exec_result_of_eq_skipIf (exec_sneReg_eq x y ign s) bne_iff_ne

end Sys2Proof.Machine
end

section
/-! PROOFS. Load immediate and add immediate (spec/42_immediate.md, R108 and R109): what an instruction that writes one register does
whatever the value, the arms of `exec`, and the claim about their results. -/

namespace Sys2Proof.Machine

/-! ### One register written -/

/-- Writing a register changes that register only. -/
theorem State.setV_onlyChanges (s : State) (x : Reg) (b : Byte) : OnlyChanges [] [x] s (s.setV x b) := by
  refine ⟨fun p _ => ?parts, fun r hr => ?regs⟩
  case parts =>
    have hsame := p.same_refl s
    cases p <;> exact hsame
  case regs => rw [State.getV_setV, if_neg (List.ne_of_not_mem_cons hr)]

/-- The result of every instruction that writes the byte `b` to `V[x]` and advances. -/
theorem exec_result_of_eq_setV {instr : Instr} {s : State} {x : Reg} {b : Byte}
    (hexec : exec instr s = .next (s.setV x b).advance) :
    ∃ t, exec instr s = .next t ∧ t.getV x = b ∧ t.pc = s.pc + 2 ∧ OnlyChanges [] [x] s t := by
  refine ⟨(s.setV x b).advance, hexec, ?value, rfl, (s.setV_onlyChanges x b).advance⟩
  case value => rw [State.getV_advance, State.getV_setV, if_pos rfl]

/-! ### The arms of `exec` -/

theorem exec_ldImm_eq (x : Reg) (kk : Byte) (s : State) : exec (.ldImm x kk) s = .next (s.setV x kk).advance := rfl
theorem exec_addImm_eq (x : Reg) (kk : Byte) (s : State) :
    exec (.addImm x kk) s = .next (s.setV x (s.getV x + kk)).advance := rfl

/-! ### The obligation -/

/-- Settles O22: each instruction writes one register, and the byte sum is the sum of the values mod 256, its carry lost. -/
theorem immediateResults : Obligations.ImmediateResults := by
  refine fun x kk s => ⟨?ldImm, ?addImm⟩
  case ldImm => exact exec_result_of_eq_setV (exec_ldImm_eq x kk s)
  case addImm =>
    obtain ⟨t, hexec, hvalue, hpc, hframe⟩ := exec_result_of_eq_setV (exec_addImm_eq x kk s)
    have hsum : (t.getV x).toNat = ((s.getV x).toNat + kk.toNat) % 256 := by rw [hvalue, BitVec.toNat_add]
    exact ⟨t, hexec, hsum, hpc, hframe⟩

end Sys2Proof.Machine
end

section
/-! PROOFS. The ALU family without a flag: assign, OR, AND, XOR (spec/43_alu.md, R110 to R113): the arms of `exec`, a written byte told bit
by bit, and the claim about their results. -/

namespace Sys2Proof.Machine

/-! ### The arms of `exec` -/

theorem exec_ldReg_eq (x y : Reg) (s : State) : exec (.ldReg x y) s = .next (s.setV x (s.getV y)).advance := rfl
theorem exec_or_eq (x y : Reg) (s : State) : exec (.or x y) s = .next (s.setV x (s.getV x ||| s.getV y)).advance := rfl
theorem exec_and_eq (x y : Reg) (s : State) : exec (.and x y) s = .next (s.setV x (s.getV x &&& s.getV y)).advance := rfl
theorem exec_xor_eq (x y : Reg) (s : State) : exec (.xor x y) s = .next (s.setV x (s.getV x ^^^ s.getV y)).advance := rfl

/-! ### One register written, bit by bit -/

/-- `exec_result_of_eq_setV` for a byte `b` whose bits are given by `bit`. -/
theorem exec_bits_of_eq_setV {instr : Instr} {s : State} {x : Reg} {b : Byte} {bit : Nat → Bool}
    (hexec : exec instr s = .next (s.setV x b).advance) (hbits : ∀ k, b.getLsbD k = bit k) :
    ∃ t, exec instr s = .next t ∧ (∀ k, (t.getV x).getLsbD k = bit k) ∧ t.pc = s.pc + 2 ∧ OnlyChanges [] [x] s t := by
  obtain ⟨t, hnext, hvalue, hpc, hframe⟩ := exec_result_of_eq_setV hexec
  have hvalueBits : ∀ k, (t.getV x).getLsbD k = bit k := by rwa [hvalue]
  exact ⟨t, hnext, hvalueBits, hpc, hframe⟩

/-! ### The obligation -/

/-- Settles O23: each instruction writes one register and sets no flag, and each bit of OR, AND and XOR is that operation on the operands'
bits. -/
theorem logicalResults : Obligations.LogicalResults := by
  refine fun x y s => ⟨?ldReg, ?or, ?and, ?xor⟩
  case ldReg => exact exec_result_of_eq_setV (exec_ldReg_eq x y s)
  case or => exact exec_bits_of_eq_setV (exec_or_eq x y s) fun _ => BitVec.getLsbD_or
  case and => exact exec_bits_of_eq_setV (exec_and_eq x y s) fun _ => BitVec.getLsbD_and
  case xor => exact exec_bits_of_eq_setV (exec_xor_eq x y s) fun _ => BitVec.getLsbD_xor

end Sys2Proof.Machine
end

section
/-! PROOFS. Get delay timer (spec/47_timers.md, R127): the arm of `exec` and the claim about its result. -/

namespace Sys2Proof.Machine

/-! ### The arm of `exec` -/

theorem exec_ldVxDt_eq (x : Reg) (s : State) : exec (.ldVxDt x) s = .next (s.setV x s.dt).advance := rfl

/-! ### The obligation -/

/-- Settles O32: the read of `DT` is one register written with it, and that write keeps the timer. -/
theorem getDelayTimerResult : Obligations.GetDelayTimerResult := fun x s =>
  exec_result_of_eq_setV (exec_ldVxDt_eq x s)

end Sys2Proof.Machine
end

section
/-! PROOFS. The block instructions (spec/48_index_memory.md, R132 to R134): the arms of `exec`, what a block write does to memory and a
block read to the registers, told by offset from `I`, and the claims about store BCD, register dump and register load. -/

namespace Sys2Proof.Machine

/-! ### The arms of `exec` -/

theorem exec_ldB_eq (x : Reg) (s : State) : exec (.ldB x) s = execLdB x s := rfl
theorem exec_dump_eq (x : Reg) (s : State) : exec (.dump x) s = execDump x s := rfl
theorem exec_load_eq (x : Reg) (s : State) : exec (.load x) s = execLoad x s := rfl

/-! ### The reported address -/

/-- The address a block access from `I` reports is the one the table of causes names (R55). -/
theorem State.firstBadAddr_i (s : State) : firstBadAddr s.i = s.badIndexAddr := by
  have hbound := s.i.isLt
  apply BitVec.eq_of_toNat_eq
  rw [toNat_firstBadAddr, State.badIndexAddr, BitVec.toNat_ofNat, Nat.mod_eq_of_lt (by omega)]

/-! ### A block written to memory -/

/-- Replacing the memory changes the memory only. -/
theorem State.setMem_onlyChanges (s : State) (m : Memory) : OnlyChanges [.memory] [] s (s.setMem m) := by
  refine ⟨fun p hp => ?_, fun _ _ => rfl⟩
  have hsame := p.same_refl s
  cases p with
  | memory => simp at hp
  | _ => exact hsame

/-- Byte `k` of a written block stands at offset `k` from its base. -/
theorem Memory.read_writeMany_effAddr {m : Memory} (hm : Memory.wf m = true) {base : Word} {bs : List Byte}
    (hfit : base.toNat + bs.length ≤ 4096) {k : Nat} (hk : k < bs.length) :
    Memory.read (Memory.writeMany m base.toNat bs) (effAddr base k) = bs.getD k 0 := by
  have hin : base.toNat ≤ effAddr base k ∧ effAddr base k < base.toNat + bs.length := by unfold effAddr; omega
  have hoff : effAddr base k - base.toNat = k := Nat.add_sub_cancel_left ..
  rw [Memory.read_writeMany hm (.inr hfit), if_pos hin, hoff]

/-- A block write leaves every address alone that is no offset of the block. -/
theorem Memory.read_writeMany_of_ne_effAddr {m : Memory} (hm : Memory.wf m = true) {base : Word} {bs : List Byte}
    (hfit : base.toNat + bs.length ≤ 4096) {a : Nat} (ha : ∀ k, k < bs.length → a ≠ effAddr base k) :
    Memory.read (Memory.writeMany m base.toNat bs) a = Memory.read m a := by
  have hout : ¬(base.toNat ≤ a ∧ a < base.toNat + bs.length) := fun ⟨hle, hlt⟩ =>
    ha (a - base.toNat) (by omega) (Nat.add_sub_cancel' hle).symm
  rw [Memory.read_writeMany hm (.inr hfit), if_neg hout]

/-- The result of every instruction that writes the bytes `bs` from `I` upward and advances. -/
theorem exec_result_of_eq_writeMany {instr : Instr} {s : State} {bs : List Byte} (hm : Memory.wf s.mem = true)
    (hfit : s.i.toNat + bs.length ≤ 4096)
    (hexec : exec instr s = .next (s.setMem (Memory.writeMany s.mem s.i.toNat bs)).advance) :
    ∃ t, exec instr s = .next t ∧
      (∀ k, k < bs.length → Memory.read t.mem (effAddr s.i k) = bs.getD k 0) ∧
      (∀ a, (∀ k, k < bs.length → a ≠ effAddr s.i k) → Memory.read t.mem a = Memory.read s.mem a) ∧
      t.pc = s.pc + 2 ∧ OnlyChanges [.memory] [] s t :=
  ⟨_, hexec, fun _ => Memory.read_writeMany_effAddr hm hfit, fun _ => Memory.read_writeMany_of_ne_effAddr hm hfit, rfl,
    (s.setMem_onlyChanges _).advance⟩

/-! ### The decimal digits of a byte -/

theorem length_bcdDigits (b : Byte) : (bcdDigits b).length = 3 := rfl

/-- The hundreds digit fits its byte. -/
theorem toNat_bcdDigits_hundreds (b : Byte) : ((bcdDigits b).getD 0 0).toNat = b.toNat / 100 := by
  have hbound := b.isLt
  exact Nat.mod_eq_of_lt (by omega)

/-- The tens digit fits its byte. -/
theorem toNat_bcdDigits_tens (b : Byte) : ((bcdDigits b).getD 1 0).toNat = b.toNat / 10 % 10 :=
  Nat.mod_eq_of_lt (by omega)

/-- The ones digit fits its byte. -/
theorem toNat_bcdDigits_ones (b : Byte) : ((bcdDigits b).getD 2 0).toNat = b.toNat % 10 :=
  Nat.mod_eq_of_lt (by omega)

/-! ### A block read into the registers -/

/-- New registers and the normal advance change no other piece of state. -/
theorem State.withV_advance_same (s : State) (v : Vector Byte 16) (p : Part) : p.same s { s with v := v }.advance := by
  have hsame := p.same_refl s
  cases p <;> exact hsame

/-- The registers after a block from `a` filled them from `V[0]` upward: those the block reaches hold its bytes, the others what they
held. -/
theorem State.getV_fillRegs_readMany (s : State) (a len : Nat) (r : Reg) :
    ({ s with v := fillRegs s.v 0 (Memory.readMany s.mem a len) } : State).getV r =
      if r.toNat < len then Memory.read s.mem (a + r.toNat) else s.getV r := by
  rw [State.getV, fillRegs_getElem, Memory.length_readMany, Nat.zero_add, Nat.sub_zero]
  by_cases hr : r.toNat < len
  · rw [if_pos ⟨Nat.zero_le _, hr⟩, if_pos hr, Memory.getD_readMany _ _ _ _ hr]
  · rw [if_neg (fun h => hr h.2), if_neg hr]; rfl

/-! ### The obligations -/

/-- Settles O35: the write is one block of three bytes, and each decimal digit of a byte fits a byte. -/
theorem storeBcdResult : Obligations.StoreBcdResult := by
  refine fun x s hm => ⟨fun hfit => ?fits, fun hbad => ?faults⟩
  case fits =>
    have hblock : s.i.toNat + (bcdDigits (s.getV x)).length ≤ 4096 := Nat.succ_le_of_lt hfit
    obtain ⟨t, hexec, hin, hout, hpc, hframe⟩ := exec_result_of_eq_writeMany hm hblock
      ((exec_ldB_eq x s).trans (execLdB_of_fits (Nat.succ_le_of_lt hfit)))
    rw [length_bcdDigits] at hin hout
    refine ⟨t, hexec, ?hundreds, ?tens, ?ones, fun a ha => hout a fun k hk => ha k (Nat.le_of_lt_succ hk), hpc, hframe⟩
    case hundreds => rw [hin 0 (by decide), toNat_bcdDigits_hundreds]
    case tens => rw [hin 1 (by decide), toNat_bcdDigits_tens]
    case ones => rw [hin 2 (by decide), toNat_bcdDigits_ones]
  case faults => rw [exec_ldB_eq, execLdB_of_not_fits (by omega), State.firstBadAddr_i]

/-- Settles O36: the write is one block of `x + 1` bytes whose byte `r` is `V[r]`. -/
theorem registerDumpResult : Obligations.RegisterDumpResult := by
  refine fun x s hm => ⟨fun hfit => ?fits, fun hbad => ?faults⟩
  case fits =>
    have hblock : s.i.toNat + (firstRegs s.v x).length ≤ 4096 := by rw [length_firstRegs]; omega
    obtain ⟨t, hexec, hin, hout, hpc, hframe⟩ := exec_result_of_eq_writeMany hm hblock
      ((exec_dump_eq x s).trans (execDump_of_fits (Nat.succ_le_of_lt hfit)))
    rw [length_firstRegs] at hin hout
    refine ⟨t, hexec, fun r hr => ?stored, fun a ha => hout a fun k hk => ha k (Nat.le_of_lt_succ hk), hpc, hframe⟩
    case stored => rw [hin r.toNat (Nat.lt_succ_of_le hr), getD_firstRegs _ _ _ hr]; rfl
  case faults => rw [exec_dump_eq, execDump_of_not_fits (by omega), State.firstBadAddr_i]

/-- Settles O37: the block read reaches exactly the registers up to `x`. -/
theorem registerLoadResult : Obligations.RegisterLoadResult := by
  refine fun x s => ⟨fun hfit => ?fits, fun hbad => ?faults⟩
  case fits =>
    refine ⟨_, (exec_load_eq x s).trans (execLoad_of_fits (Nat.succ_le_of_lt hfit)), fun r hr => ?loaded, fun r hr => ?kept,
      s.withV_advance_same _, rfl⟩
    case loaded => exact (s.getV_fillRegs_readMany _ _ r).trans (if_pos (Nat.lt_succ_of_le hr))
    case kept => exact (s.getV_fillRegs_readMany _ _ r).trans (if_neg (by omega))
  case faults => rw [exec_load_eq, execLoad_of_not_fits (by omega), State.firstBadAddr_i]

end Sys2Proof.Machine
end

section
/-! PROOFS. An unknown opcode (spec/49_wait_key_unknown.md, R136): what a cycle does at a rejected word under either policy, the outcome of
a cycle read off its two states, and the claim about both policies. -/

namespace Sys2Proof.Machine

/-! ### The cycle at a rejected word -/

theorem step_of_rejected {s : State} {why : Reject} (hfetch : s.Fetches) (hword : decode s.wordAtPc = .rejected why) :
    step s = unknownOpcode s.wordAtPc s := by
  rw [step_of_fetches hfetch, runWord, hword]

theorem unknownOpcode_of_strict {s : State} (h : s.strict = true) (word : Word) :
    unknownOpcode word s = .next (s.faulted .unknownOpcode s.pc word) :=
  if_pos h

theorem unknownOpcode_of_lenient {s : State} (h : s.strict = false) (word : Word) :
    unknownOpcode word s = .next s.advance :=
  if_neg (Bool.eq_false_iff.mp h)

/-! ### The outcome of a cycle (R170) -/

theorem cycleOutcome_of_step {s t : State} (h : step s = .next t) : cycleOutcome s = some (outcomeOf s t) := by
  rw [step] at h
  rw [cycleOutcome, h]

/-- A cycle that takes a fatal fault reports it as recorded, whatever the cycle was doing. -/
theorem outcomeOf_faulted {s : State} (h : s.halt = false) (kind : FaultKind) (info word : Word) :
    outcomeOf s (s.faulted kind info word) = .fatal kind info word := by
  rw [outcomeOf, if_neg (Bool.eq_false_iff.mp h)]
  exact if_pos rfl

/-- A cycle that fetched a rejected word and neither halted nor began a wait reports the word and where it stood. -/
theorem outcomeOf_of_rejected {s t : State} {why : Reject} (hfetch : s.Fetches)
    (hword : decode s.wordAtPc = .rejected why) (hhalt : t.halt = false) (hwait : t.wait = false) :
    outcomeOf s t = .unknown s.wordAtPc s.pc := by
  obtain ⟨hhalt', hwait', hpc⟩ := hfetch
  simp only [outcomeOf, hhalt, hwait, hhalt', hwait', Bool.false_eq_true, if_false, fetchWord_eq, if_pos hpc, hword]

/-! ### The obligation -/

/-- Settles O13: `STRICT` alone decides between the fatal fault and the bare advance, and each outcome follows from the state reached. -/
theorem unknownOpcodePolicies : Obligations.UnknownOpcodePolicies := by
  intro s why hfetch hword
  have ⟨hhalt, hwait, _⟩ := hfetch
  refine ⟨fun hstrict => ?strict, fun hlenient => ?lenient⟩
  case strict =>
    have hstep := (step_of_rejected hfetch hword).trans (unknownOpcode_of_strict hstrict _)
    exact ⟨hstep, (cycleOutcome_of_step hstep).trans (congrArg some (outcomeOf_faulted hhalt _ _ _))⟩
  case lenient =>
    have hstep := (step_of_rejected hfetch hword).trans (unknownOpcode_of_lenient hlenient _)
    have houtcome : outcomeOf s s.advance = .unknown s.wordAtPc s.pc := outcomeOf_of_rejected hfetch hword hhalt hwait
    exact ⟨s.advance, hstep, rfl, (OnlyChanges.refl [] [] s).advance,
      (cycleOutcome_of_step hstep).trans (congrArg some houtcome)⟩

end Sys2Proof.Machine
end

section
/-! PROOFS. The encoding (spec/30_encoding.md, R84 to R89): what a row of the opcode table asks of a word's fields, everything the decoder can
answer, and the claims about decoder, encoder and table. -/

namespace Sys2Proof

/-! ### What a row of the table asks of a word's fields -/

/-- An instruction of the same row, its operands and ignored nibble read from a word's fields (R81). -/
def Instr.withFieldsOf (w : Word) : Instr → Instr
  | .cls _ => .cls (fieldX w)
  | .ret _ => .ret (fieldX w)
  | .jp _ => .jp (fieldNNN w)
  | .call _ => .call (fieldNNN w)
  | .seImm _ _ => .seImm (fieldX w) (fieldKK w)
  | .sneImm _ _ => .sneImm (fieldX w) (fieldKK w)
  | .seReg _ _ _ => .seReg (fieldX w) (fieldY w) (fieldN w)
  | .sneReg _ _ _ => .sneReg (fieldX w) (fieldY w) (fieldN w)
  | .ldImm _ _ => .ldImm (fieldX w) (fieldKK w)
  | .addImm _ _ => .addImm (fieldX w) (fieldKK w)
  | .ldReg _ _ => .ldReg (fieldX w) (fieldY w)
  | .or _ _ => .or (fieldX w) (fieldY w)
  | .and _ _ => .and (fieldX w) (fieldY w)
  | .xor _ _ => .xor (fieldX w) (fieldY w)
  | .addReg _ _ => .addReg (fieldX w) (fieldY w)
  | .sub _ _ => .sub (fieldX w) (fieldY w)
  | .shr _ _ => .shr (fieldX w) (fieldY w)
  | .subn _ _ => .subn (fieldX w) (fieldY w)
  | .shl _ _ => .shl (fieldX w) (fieldY w)
  | .skp _ => .skp (fieldX w)
  | .sknp _ => .sknp (fieldX w)
  | .ldI _ => .ldI (fieldNNN w)
  | .jpV0 _ => .jpV0 (fieldNNN w)
  | .rnd _ _ => .rnd (fieldX w) (fieldKK w)
  | .drw _ _ _ => .drw (fieldX w) (fieldY w) (fieldN w)
  | .ldVxDt _ => .ldVxDt (fieldX w)
  | .ldDtVx _ => .ldDtVx (fieldX w)
  | .ldStVx _ => .ldStVx (fieldX w)
  | .addI _ => .addI (fieldX w)
  | .ldF _ => .ldF (fieldX w)
  | .ldB _ => .ldB (fieldX w)
  | .dump _ => .dump (fieldX w)
  | .load _ => .load (fieldX w)
  | .ldVxK _ => .ldVxK (fieldX w)

@[simp] theorem Instr.row_withFieldsOf (w : Word) (i : Instr) : (i.withFieldsOf w).row = i.row := by
  cases i <;> rfl

/-- The formats put every operand into the field it is read from. -/
@[simp] theorem Instr.withFieldsOf_encode (i : Instr) : i.withFieldsOf (encode i) = i := by
  cases i <;> simp [encode, withFieldsOf]

/-- A mask that covers a field fixes it. -/
theorem extractLsb'_of_and_eq {w mask pattern : Word} {start len : Nat} (hmask : mask.extractLsb' start len = BitVec.allOnes len)
    (h : w &&& mask = pattern) : w.extractLsb' start len = pattern.extractLsb' start len := by
  rw [← h, BitVec.extractLsb'_and, hmask, BitVec.and_allOnes]

theorem fieldClass_of_and_eq {w mask pattern : Word} (hmask : fieldClass mask = BitVec.allOnes 4) (h : w &&& mask = pattern) :
    fieldClass w = fieldClass pattern := extractLsb'_of_and_eq hmask h

theorem fieldN_of_and_eq {w mask pattern : Word} (hmask : fieldN mask = BitVec.allOnes 4) (h : w &&& mask = pattern) :
    fieldN w = fieldN pattern := extractLsb'_of_and_eq hmask h

theorem fieldKK_of_and_eq {w mask pattern : Word} (hmask : fieldKK mask = BitVec.allOnes 8) (h : w &&& mask = pattern) :
    fieldKK w = fieldKK pattern := extractLsb'_of_and_eq hmask h

/-- The decoder answers the row that claims a word, with the operands the word's fields hold: a mask covers exactly the key the decoder
looks at, the class alone, the class and the low nibble, or the class and the low byte (R84). -/
theorem decode_of_row_claims {i : Instr} {w : Word} (h : i.row.claims w = true) : decode w = .instr (i.withFieldsOf w) := by
  have hand : w &&& i.row.mask = i.row.pattern := beq_iff_eq.mp h
  cases i with
  | jp | call | seImm | sneImm | seReg | sneReg | ldImm | addImm | ldI | jpV0 | rnd | drw =>
    simp only [Instr.row] at hand
    have hclass := fieldClass_of_and_eq rfl hand
    rw [decode, hclass]; rfl
  | ldReg | or | and | xor | addReg | sub | shr | subn | shl =>
    simp only [Instr.row] at hand
    have hclass := fieldClass_of_and_eq rfl hand
    have hn := fieldN_of_and_eq rfl hand
    rw [decode, decodeClass8, hclass, hn]; rfl
  | cls | ret | skp | sknp | ldVxDt | ldDtVx | ldStVx | addI | ldF | ldB | dump | load | ldVxK =>
    simp only [Instr.row] at hand
    have hclass := fieldClass_of_and_eq rfl hand
    have hkk := fieldKK_of_and_eq rfl hand
    simp only [decode, decodeClass0, decodeClassE, decodeClassF, hclass, hkk]; rfl

/-- Every instruction's row claims its word. -/
theorem Instr.row_claims_encode (i : Instr) : i.row.claims (encode i) = true := by
  cases i with
  | cls => exact Laws.RowClaims.cls _
  | ret => exact Laws.RowClaims.ret _
  | jp => exact Laws.RowClaims.jp _
  | call => exact Laws.RowClaims.call _
  | seImm => exact Laws.RowClaims.seImm _ _
  | sneImm => exact Laws.RowClaims.sneImm _ _
  | seReg => exact Laws.RowClaims.seReg _ _ _
  | sneReg => exact Laws.RowClaims.sneReg _ _ _
  | ldImm => exact Laws.RowClaims.ldImm _ _
  | addImm => exact Laws.RowClaims.addImm _ _
  | ldReg => exact Laws.RowClaims.ldReg _ _
  | or => exact Laws.RowClaims.or _ _
  | and => exact Laws.RowClaims.and _ _
  | xor => exact Laws.RowClaims.xor _ _
  | addReg => exact Laws.RowClaims.addReg _ _
  | sub => exact Laws.RowClaims.sub _ _
  | shr => exact Laws.RowClaims.shr _ _
  | subn => exact Laws.RowClaims.subn _ _
  | shl => exact Laws.RowClaims.shl _ _
  | skp => exact Laws.RowClaims.skp _
  | sknp => exact Laws.RowClaims.sknp _
  | ldI => exact Laws.RowClaims.ldI _
  | jpV0 => exact Laws.RowClaims.jpV0 _
  | rnd => exact Laws.RowClaims.rnd _ _
  | drw => exact Laws.RowClaims.drw _ _ _
  | ldVxDt => exact Laws.RowClaims.ldVxDt _
  | ldDtVx => exact Laws.RowClaims.ldDtVx _
  | ldStVx => exact Laws.RowClaims.ldStVx _
  | addI => exact Laws.RowClaims.addI _
  | ldF => exact Laws.RowClaims.ldF _
  | ldB => exact Laws.RowClaims.ldB _
  | dump => exact Laws.RowClaims.dump _
  | load => exact Laws.RowClaims.load _
  | ldVxK => exact Laws.RowClaims.ldVxK _

/-- Settles O3: an instruction's row claims its word, so the decoder answers that row with the word's fields, which are the operands. -/
theorem decodeOfEncode : Obligations.DecodeOfEncode := by
  intro i
  rw [decode_of_row_claims i.row_claims_encode, i.withFieldsOf_encode]

/-! ### Everything the decoder can answer -/

/-- A word of R87's table of unknown words. -/
def UnknownWord (w : Word) : Prop :=
  (w.toNat / 4096 = 0x0 ∧ w.toNat % 256 ∉ [0xE0, 0xEE]) ∨
  (w.toNat / 4096 = 0x8 ∧ w.toNat % 16 ∈ [0x8, 0x9, 0xA, 0xB, 0xC, 0xD, 0xF]) ∨
  (w.toNat / 4096 = 0xE ∧ w.toNat % 256 ∉ [0x9E, 0xA1]) ∨
  (w.toNat / 4096 = 0xF ∧ w.toNat % 256 ∉ [0x07, 0x0A, 0x15, 0x18, 0x1E, 0x29, 0x33, 0x55, 0x65])

/-- The class and `nnn` make up a word. -/
theorem formatA_of_fields {w : Word} {c : Nibble} (hc : (fieldClass w).toNat = c.toNat) : formatA c (fieldNNN w) = w := by
  rw [← BitVec.eq_of_toNat_eq hc, formatA_fields]

/-- The class, `x` and the low byte make up a word. -/
theorem formatXK_of_fields {w : Word} {c : Nibble} {kk : Byte} (hc : (fieldClass w).toNat = c.toNat)
    (hk : (fieldKK w).toNat = kk.toNat) : formatXK c (fieldX w) kk = w := by
  rw [← BitVec.eq_of_toNat_eq hc, ← BitVec.eq_of_toNat_eq hk, formatXK_fields]

/-- The class, `x`, `y` and the low nibble make up a word. -/
theorem formatXY_of_fields {w : Word} {c n : Nibble} (hc : (fieldClass w).toNat = c.toNat)
    (hn : (fieldN w).toNat = n.toNat) : formatXY c (fieldX w) (fieldY w) n = w := by
  rw [← BitVec.eq_of_toNat_eq hc, ← BitVec.eq_of_toNat_eq hn, formatXY_fields]

/-- What the decoder may answer for a word: an instruction whose word it is, or a rejection naming it as one of R87's unknown words. -/
def DecodesTo (w : Word) : Decoded → Prop
  | .instr i => encode i = w
  | .rejected why => why = .unknownOpcode w ∧ UnknownWord w

section
variable {w : Word}

theorem decodesTo_decodeClass0 (hc : (fieldClass w).toNat = 0x0) : DecodesTo w (decodeClass0 w) := by
  unfold decodeClass0
  split
  case h_3 h1 h2 =>
    rw [toNat_fieldClass] at hc
    simp only [toNat_fieldKK, imp_false] at h1 h2
    have hbound := w.isLt
    exact ⟨rfl, .inl ⟨by omega, by simp only [List.mem_cons, List.not_mem_nil, or_false]; omega⟩⟩
  all_goals exact formatXK_of_fields hc ‹_›

theorem decodesTo_decodeClass8 (hc : (fieldClass w).toNat = 0x8) : DecodesTo w (decodeClass8 w) := by
  unfold decodeClass8
  split
  case h_10 h0 h1 h2 h3 h4 h5 h6 h7 hE =>
    rw [toNat_fieldClass] at hc
    simp only [toNat_fieldN, imp_false] at h0 h1 h2 h3 h4 h5 h6 h7 hE
    have hbound := w.isLt
    exact ⟨rfl, .inr (.inl ⟨by omega, by simp only [List.mem_cons, List.not_mem_nil, or_false]; omega⟩)⟩
  all_goals exact formatXY_of_fields hc ‹_›

theorem decodesTo_decodeClassE (hc : (fieldClass w).toNat = 0xE) : DecodesTo w (decodeClassE w) := by
  unfold decodeClassE
  split
  case h_3 h1 h2 =>
    rw [toNat_fieldClass] at hc
    simp only [toNat_fieldKK, imp_false] at h1 h2
    have hbound := w.isLt
    exact ⟨rfl, .inr (.inr (.inl ⟨by omega, by simp only [List.mem_cons, List.not_mem_nil, or_false]; omega⟩))⟩
  all_goals exact formatXK_of_fields hc ‹_›

theorem decodesTo_decodeClassF (hc : (fieldClass w).toNat = 0xF) : DecodesTo w (decodeClassF w) := by
  unfold decodeClassF
  split
  case h_10 h1 h2 h3 h4 h5 h6 h7 h8 h9 =>
    rw [toNat_fieldClass] at hc
    simp only [toNat_fieldKK, imp_false] at h1 h2 h3 h4 h5 h6 h7 h8 h9
    have hbound := w.isLt
    exact ⟨rfl, .inr (.inr (.inr ⟨by omega, by simp only [List.mem_cons, List.not_mem_nil, or_false]; omega⟩))⟩
  all_goals exact formatXK_of_fields hc ‹_›

end

/-- Everything the decoder can answer. -/
theorem decodesTo_decode (w : Word) : DecodesTo w (decode w) := by
  have hclass := (fieldClass w).isLt
  unfold decode
  split
  case h_1 hc => exact decodesTo_decodeClass0 hc
  case h_9 hc => exact decodesTo_decodeClass8 hc
  case h_15 hc => exact decodesTo_decodeClassE hc
  case h_16 hc => exact decodesTo_decodeClassF hc
  case h_17 => simp only [imp_false] at *; omega
  case h_2 hc | h_3 hc | h_11 hc | h_12 hc => exact formatA_of_fields hc
  case h_4 hc | h_5 hc | h_7 hc | h_8 hc | h_13 hc => exact formatXK_of_fields hc rfl
  case h_6 hc | h_10 hc | h_14 hc => exact formatXY_of_fields hc rfl

/-- Settles O4: an answered instruction is one whose word was decoded. -/
theorem encodeOfDecode : Obligations.EncodeOfDecode := by
  intro w i hdecode
  have hto := decodesTo_decode w
  rwa [hdecode] at hto

/-- No instruction has an unknown word: its class has no sub-codes, or its sub-code is one of the table's. -/
theorem not_unknownWord_encode (i : Instr) : ¬UnknownWord (encode i) := by
  unfold UnknownWord
  cases i <;> simp [encode, toNat_formatA, toNat_formatXK, toNat_formatXY] <;> omega

/-- Settles O5: a rejection names an unknown word, and an unknown word is no instruction's, so it is not accepted. -/
theorem unknownOpcodesAreExactly : Obligations.UnknownOpcodesAreExactly := by
  intro w
  have hto := decodesTo_decode w
  cases hdecode : decode w with
  | instr i =>
    rw [hdecode] at hto
    have hknown : ¬UnknownWord w := hto ▸ not_unknownWord_encode i
    exact ⟨⟨nofun, fun h => absurd h hknown⟩, nofun⟩
  | rejected why =>
    rw [hdecode] at hto
    obtain ⟨hwhy, hunknown⟩ := hto
    exact ⟨⟨fun _ => hunknown, fun _ => ⟨why, rfl⟩⟩, fun _ h => Decoded.rejected.inj h ▸ hwhy⟩

/-! ### The table of masks and matches -/

theorem Instr.row_mem_opcodeTable (i : Instr) : i.row ∈ opcodeTable := by
  cases i <;> simp [opcodeTable, Instr.row]

/-- Every row of the table is the row of an instruction. -/
theorem exists_row_of_mem_opcodeTable : ∀ r ∈ opcodeTable, ∃ i : Instr, i.row = r := by
  simp [opcodeTable]

/-- Settles O6: the decoder answers every row that claims a word, so one that claims an accepted word is the answer's own row, and none
claims a rejected word. -/
theorem decoderIsTheOpcodeTable : Obligations.DecoderIsTheOpcodeTable := by
  intro w
  have hanswer : ∀ r ∈ opcodeTable, r.claims w = true → ∃ i, decode w = .instr i ∧ i.row = r := by
    intro r hr hclaims
    obtain ⟨i, rfl⟩ := exists_row_of_mem_opcodeTable r hr
    exact ⟨i.withFieldsOf w, decode_of_row_claims hclaims, i.row_withFieldsOf w⟩
  refine ⟨fun i hdecode => ⟨i.row_mem_opcodeTable, fun r hr => ⟨fun hclaims => ?only, ?own⟩⟩, fun why hdecode r hr => ?none⟩
  case only =>
    obtain ⟨j, hj, rfl⟩ := hanswer r hr hclaims
    rw [hdecode] at hj
    rw [Decoded.instr.inj hj]
  case own =>
    rintro rfl
    rw [← encodeOfDecode w i hdecode]
    exact i.row_claims_encode
  case none =>
    rw [Bool.eq_false_iff]
    intro hclaims
    obtain ⟨j, hj, -⟩ := hanswer r hr hclaims
    rw [hdecode] at hj
    cases hj

/-! ### The ignored fields -/

/-- The check asks 0 of the field an instruction's row ignores, and of no other. -/
theorem Instr.wellFormed_iff (i : Instr) : i.wellFormed = true ↔
    ((i.row.mnemonic = "CLS" ∨ i.row.mnemonic = "RET") → fieldX (encode i) = 0) ∧
    ((i.row.mnemonic = "SE_Vx__Vy" ∨ i.row.mnemonic = "SNE_Vx__Vy") → fieldN (encode i) = 0) ∧
    ((i.row.mnemonic = "SHR_Vx" ∨ i.row.mnemonic = "SHL_Vx") → fieldY (encode i) = 0) := by
  cases i <;> simp [wellFormed, row, encode]

/-- Settles O7: the formats put the ignored nibble into the field the check is about, and no meaning reads it but the fault record of a
return with an empty stack. -/
theorem ignoredFieldsHaveNoEffect : Obligations.IgnoredFieldsHaveNoEffect := by
  refine ⟨fun i => ?check, fun x y ign s => ⟨rfl, fun hpos => ?ret, rfl, rfl, rfl, rfl⟩⟩
  case check =>
    have hzero : ∀ f : Nibble, f.toNat = 0 ↔ f = 0 := fun f => BitVec.toNat_inj (y := 0)
    rw [← toNat_fieldX, ← toNat_fieldN, ← toNat_fieldY, hzero, hzero, hzero]
    exact i.wellFormed_iff
  case ret => exact (Machine.execRet_of_pos hpos).trans (Machine.execRet_of_pos hpos).symm

/-! ### Words written out -/

/-- Settles O8: each word evaluates to its instruction. -/
theorem writtenOutWordsDecode : Obligations.WrittenOutWordsDecode := by
  unfold Obligations.WrittenOutWordsDecode
  decide

end Sys2Proof
end

section
/-! PROOFS. The ALU family with a flag: add with carry, subtract, subtract reversed, the shifts (spec/43_alu.md, R114 to R118): what an
instruction that writes a flag and a result does whatever their values, the arms of `exec`, and the claims about their results. -/

namespace Sys2Proof.Machine

/-! ### A flag and a result -/

/-- Writing a flag and a result changes those two registers only. -/
theorem State.setFlagThen_onlyChanges (s : State) (x : Reg) (flag result : Byte) :
    OnlyChanges [] [x, 15] s (s.setFlagThen x flag result) := by
  refine ⟨fun p _ => ?parts, fun r hr => ?regs⟩
  case parts =>
    have hsame := p.same_refl s
    cases p <;> exact hsame
  case regs =>
    obtain ⟨hx, h15⟩ : r ≠ x ∧ r ≠ 15 := by simpa using hr
    rw [State.getV_setFlagThen, if_neg hx, if_neg h15]

/-- The result of every instruction that writes a flag of value `f`, then a result of value `v` to `V[x]`, and advances. -/
theorem exec_result_of_eq_setFlagThen {instr : Instr} {s : State} {x : Reg} {flag result : Byte} {f v : Nat}
    (hexec : exec instr s = .next (s.setFlagThen x flag result).advance) (hresult : result.toNat = v) (hflag : flag.toNat = f) :
    ∃ t, exec instr s = .next t ∧ (t.getV x).toNat = v ∧ (x ≠ 15 → (t.getV 15).toNat = f) ∧ t.pc = s.pc + 2 ∧
      OnlyChanges [] [x, 15] s t := by
  refine ⟨_, hexec, ?result, fun hx => ?flag, rfl, (s.setFlagThen_onlyChanges x flag result).advance⟩
  case result => rw [State.getV_advance, State.getV_result, hresult]
  case flag => rw [State.getV_advance, State.getV_flag s flag result hx, hflag]

/-- A byte difference, wrapped. -/
theorem toNat_sub_byte (a b : Byte) : (a - b).toNat = (a.toNat + 256 - b.toNat) % 256 := by
  have hbound := b.isLt
  rw [BitVec.toNat_sub]
  congr 1
  omega

/-- A byte shifted right by one is halved. -/
theorem toNat_shiftRight_one (a : Byte) : (a >>> 1).toNat = a.toNat / 2 := by
  rw [BitVec.toNat_ushiftRight, Nat.shiftRight_eq_div_pow, Nat.pow_one]

/-- A byte shifted left by one is doubled, wrapped. -/
theorem toNat_shiftLeft_one (a : Byte) : (a <<< 1).toNat = a.toNat * 2 % 256 := by
  rw [BitVec.toNat_shiftLeft, Nat.shiftLeft_eq, Nat.pow_one]

/-! ### The arms of `exec` -/

theorem exec_addReg_eq (x y : Reg) (s : State) : exec (.addReg x y) s =
    .next (s.setFlagThen x (carryFlag (s.getV x) (s.getV y)) (s.getV x + s.getV y)).advance := rfl
theorem exec_sub_eq (x y : Reg) (s : State) : exec (.sub x y) s =
    .next (s.setFlagThen x (noBorrowFlag (s.getV x) (s.getV y)) (s.getV x - s.getV y)).advance := rfl
theorem exec_shr_eq (x : Reg) (ign : Nibble) (s : State) : exec (.shr x ign) s =
    .next (s.setFlagThen x (shiftedOutRight (s.getV x)) (s.getV x >>> 1)).advance := rfl
theorem exec_subn_eq (x y : Reg) (s : State) : exec (.subn x y) s =
    .next (s.setFlagThen x (noBorrowFlag (s.getV y) (s.getV x)) (s.getV y - s.getV x)).advance := rfl
theorem exec_shl_eq (x : Reg) (ign : Nibble) (s : State) : exec (.shl x ign) s =
    .next (s.setFlagThen x (shiftedOutLeft (s.getV x)) (s.getV x <<< 1)).advance := rfl

/-! ### The obligations -/

/-- Settles O24: each instruction writes its flag before its result, so that the result stays where both name `V[15]`. -/
theorem addSubtractResults : Obligations.AddSubtractResults := by
  refine fun x y s => ⟨?addReg, ?sub, ?subn⟩
  case addReg => exact exec_result_of_eq_setFlagThen (exec_addReg_eq x y s) (BitVec.toNat_add _ _) (toNat_carryFlag _ _)
  case sub => exact exec_result_of_eq_setFlagThen (exec_sub_eq x y s) (toNat_sub_byte _ _) (toNat_noBorrowFlag _ _)
  case subn => exact exec_result_of_eq_setFlagThen (exec_subn_eq x y s) (toNat_sub_byte _ _) (toNat_noBorrowFlag _ _)

/-- Settles O25: a shift by one halves or doubles, and the flag is the bit that leaves the byte. -/
theorem shiftResults : Obligations.ShiftResults := by
  refine fun x ign s => ⟨?shr, ?shl⟩
  case shr => exact exec_result_of_eq_setFlagThen (exec_shr_eq x ign s) (toNat_shiftRight_one _) (toNat_shiftedOutRight _)
  case shl => exact exec_result_of_eq_setFlagThen (exec_shl_eq x ign s) (toNat_shiftLeft_one _) (toNat_shiftedOutLeft _)

end Sys2Proof.Machine
end

section
/-! PROOFS. The key skips (spec/44_key_skips.md, R120 and R121): the arms of `exec` and the claim about their results. -/

namespace Sys2Proof.Machine

/-! ### The arms of `exec` -/

theorem exec_skp_eq (x : Reg) (s : State) : exec (.skp x) s = execSkp x s := rfl
theorem exec_sknp_eq (x : Reg) (s : State) : exec (.sknp x) s = execSknp x s := rfl

/-! ### The obligation -/

/-- Settles O26: below 16 each is a skip by the level of the named key, and from 16 on the index names no key. -/
theorem keySkipResults : Obligations.KeySkipResults := by
  refine fun x s => ⟨fun hkey => ⟨?skp, ?sknp⟩, fun hbad => ⟨byteToWord (s.getV x), toNat_byteToWord _, ?skpFault, ?sknpFault⟩⟩
  case skp => exact exec_result_of_eq_skipIf ((exec_skp_eq x s).trans (execSkp_of_lt hkey)) Iff.rfl
  case sknp => exact exec_result_of_eq_skipIf ((exec_sknp_eq x s).trans (execSknp_of_lt hkey)) (Iff.of_eq (Bool.not_eq_true' _))
  case skpFault => exact (exec_skp_eq x s).trans (execSkp_of_ge hbad)
  case sknpFault => exact (exec_sknp_eq x s).trans (execSknp_of_ge hbad)

end Sys2Proof.Machine
end

section
/-! PROOFS. Jump with offset and random (spec/45_index_jump_random.md, R123 and R124), set delay and sound timer (spec/47_timers.md, R128 and
R129), add to I and font address (spec/48_index_memory.md, R130 and R131): the arms of `exec`, the frames of the state operations they
use, and the claims about their results. -/

namespace Sys2Proof.Machine

/-! ### The arms of `exec` -/

theorem exec_jpV0_eq (nnn : Addr12) (s : State) : exec (.jpV0 nnn) s = .next (s.setPc (offsetTarget (s.getV 0) nnn)) := rfl
theorem exec_rnd_eq (x : Reg) (kk : Byte) (s : State) :
    exec (.rnd x kk) s = .next { rndWith (randomDraw s) x kk s with rndCount := s.rndCount + 1 } := rfl
theorem exec_ldDtVx_eq (x : Reg) (s : State) : exec (.ldDtVx x) s = .next (s.setDt (s.getV x)).advance := rfl
theorem exec_ldStVx_eq (x : Reg) (s : State) : exec (.ldStVx x) s = .next (s.setSt (s.getV x)).advance := rfl
theorem exec_addI_eq (x : Reg) (s : State) : exec (.addI x) s = .next (s.setI (s.i + byteToWord (s.getV x))).advance := rfl
theorem exec_ldF_eq (x : Reg) (s : State) : exec (.ldF x) s = .next (s.setI (glyphAddr (s.getV x))).advance := rfl

/-! ### Frames of the state operations -/

/-- Setting `DT` changes the delay timer only (R128). -/
theorem State.setDt_onlyChanges (s : State) (b : Byte) : OnlyChanges [.delayTimer] [] s (s.setDt b) := by
  refine ⟨fun p hp => ?_, fun _ _ => rfl⟩
  have hsame := p.same_refl s
  cases p with
  | delayTimer => simp at hp
  | _ => exact hsame

/-- Setting `ST` changes the sound timer only (R129). -/
theorem State.setSt_onlyChanges (s : State) (b : Byte) : OnlyChanges [.soundTimer] [] s (s.setSt b) := by
  refine ⟨fun p hp => ?_, fun _ _ => rfl⟩
  have hsame := p.same_refl s
  cases p with
  | soundTimer => simp at hp
  | _ => exact hsame

/-- The random instruction with its byte given writes one register. -/
theorem getV_rndWith (r : Byte) (x : Reg) (kk : Byte) (s : State) : (rndWith r x kk s).getV x = r &&& kk := by
  rw [rndWith, State.getV_advance, State.getV_setV, if_pos rfl]

/-- The random instruction changes its register and the count of draws only (R124). -/
theorem rndWith_onlyChanges (r : Byte) (x : Reg) (kk : Byte) (s : State) (count : Nat) :
    OnlyChanges [.draws] [x] s { rndWith r x kk s with rndCount := count } := by
  obtain ⟨hparts, hregs⟩ := (s.setV_onlyChanges x (r &&& kk)).advance
  refine ⟨fun p hp => ?_, hregs⟩
  have hsame := hparts p List.not_mem_nil
  cases p with
  | draws => simp at hp
  | _ => exact hsame

/-! ### The obligations -/

/-- Settles O27: the sum of a byte and a 12-bit address fits a word, so it is never reduced. -/
theorem jumpWithOffsetResult : Obligations.JumpWithOffsetResult := by
  intro nnn s
  have hsum := toNat_offsetTarget (s.getV 0) nnn
  have hv := (s.getV 0).isLt
  have hnnn := nnn.isLt
  exact ⟨_, exec_jpV0_eq nnn s, hsum, by rw [State.setPc_pc]; omega, (OnlyChanges.refl [] [] s).setPc _⟩

/-- Settles O28: the free byte enters through the mask alone. -/
theorem randomResult : Obligations.RandomResult := by
  intro x kk s
  have hbits : ∀ r b, ((rndWith r x kk s).getV x).getLsbD b = (r.getLsbD b && kk.getLsbD b) := fun r b => by
    rw [getV_rndWith, BitVec.getLsbD_and]
  refine ⟨⟨_, exec_rnd_eq x kk s, hbits (randomDraw s), fun b hb => ?masked, rfl, rfl, rndWith_onlyChanges _ x kk s _⟩, hbits⟩
  case masked => exact (hbits (randomDraw s) b).trans (by rw [hb, Bool.and_false])

/-- Settles O33: each timer is loaded with the register, and the tone reads the sound timer. -/
theorem setTimerResults : Obligations.SetTimerResults := by
  refine fun x s => ⟨?delay, ?sound⟩
  case delay => exact ⟨_, exec_ldDtVx_eq x s, rfl, rfl, (s.setDt_onlyChanges _).advance⟩
  case sound => exact ⟨_, exec_ldStVx_eq x s, rfl, decide_eq_true_iff, rfl, (s.setSt_onlyChanges _).advance⟩

/-- Settles O34: the sum wraps with the word, and five times a byte fits one. -/
theorem indexArithmeticResults : Obligations.IndexArithmeticResults := by
  refine fun x s => ⟨?addI, ?ldF⟩
  case addI =>
    have hsum : (s.i + byteToWord (s.getV x)).toNat = (s.i.toNat + (s.getV x).toNat) % 65536 := by
      rw [BitVec.toNat_add, toNat_byteToWord]
    exact ⟨_, exec_addI_eq x s, hsum, rfl, (s.setI_onlyChanges _).advance⟩
  case ldF => exact ⟨_, exec_ldF_eq x s, toNat_glyphAddr _, rfl, (s.setI_onlyChanges _).advance⟩

end Sys2Proof.Machine
end

section
/-! PROOFS. Draw (spec/46_draw.md, R125 and R126): the arm of `exec`, the rows a draw reads, the collision flag, and the claims about one draw
and about two. -/

namespace Sys2Proof.Machine

/-! ### The arm of `exec` -/

theorem exec_drw_eq (x y : Reg) (n : Nibble) (s : State) : exec (.drw x y n) s = execDrw x y n s := rfl

/-! ### The rows -/

/-- A block read lists the bytes by offset. -/
theorem Memory.readMany_eq_map (m : Memory) (a len : Nat) :
    Memory.readMany m a len = (List.range len).map fun k => Memory.read m (a + k) := by
  induction len generalizing a with
  | zero => rfl
  | succ len ih =>
    rw [Memory.readMany, ih, List.range_succ_eq_map, List.map_cons, List.map_map, Nat.add_zero]
    congr 2
    funext k
    exact congrArg _ (Nat.succ_add_eq_add_succ a k)

/-- The rows a draw reads are the sprite's rows. -/
theorem State.readMany_i_eq_spriteRows (s : State) (n : Nat) : Memory.readMany s.mem s.i.toNat n = s.spriteRows n :=
  Memory.readMany_eq_map s.mem s.i.toNat n

theorem State.length_spriteRows (s : State) (n : Nat) : (s.spriteRows n).length = n := by
  rw [State.spriteRows, List.length_map, List.length_range]

/-- A sprite is read through `I` and memory alone. -/
theorem State.spriteRows_congr {s t : State} (hi : Part.index.same s t) (hmem : Part.memory.same s t) (n : Nat) :
    t.spriteRows n = s.spriteRows n := by
  have hindex : t.i = s.i := hi
  have hread : ∀ a, Memory.read t.mem a = Memory.read s.mem a := hmem
  simp only [State.spriteRows, hindex, hread]

/-! ### The effect on the state -/

/-- Drawing changes the pixels, `DIRTY` and `V[15]` only (R125). -/
theorem State.drawSprite_onlyChanges (s : State) (vx vy : Byte) (rows : List Byte) :
    OnlyChanges [.pixels, .dirty] [15] s (s.drawSprite vx vy rows) := by
  obtain ⟨hparts, hregs⟩ := s.setV_onlyChanges 15 (collisionFlag (drawRows vx vy 0 rows (s.fb, false)).2)
  refine ⟨fun p hp => ?_, hregs⟩
  have hsame := hparts p List.not_mem_nil
  cases p with
  | pixels => simp at hp
  | dirty => simp at hp
  | _ => exact hsame

/-- The flag of a drawing. -/
theorem State.getV_drawSprite_flag (s : State) (vx vy : Byte) (rows : List Byte) :
    (s.drawSprite vx vy rows).getV 15 = collisionFlag (drawRows vx vy 0 rows (s.fb, false)).2 :=
  (State.getV_setV s 15 15 _).trans (if_pos rfl)

theorem collisionFlag_eq_zero_or_one (b : Bool) : collisionFlag b = 0 ∨ collisionFlag b = 1 := by
  cases b
  · exact .inl rfl
  · exact .inr rfl

theorem collisionFlag_eq_one_iff (b : Bool) : collisionFlag b = 1 ↔ b = true := by
  cases b <;> decide

/-! ### The obligations -/

/-- Settles O29: within one draw no pixel is touched twice, so every pixel and the collision are told by the pixels before it. -/
theorem drawResult : Obligations.DrawResult := by
  intro x y n s hfit
  have hexec := (exec_drw_eq x y n s).trans (execDrw_of_fits (show n.toNat = 0 ∨ s.i.toNat + n.toNat ≤ 4096 by omega))
  rw [State.readMany_i_eq_spriteRows] at hexec
  have hrows : (s.spriteRows n.toNat).length ≤ 32 := by
    have hbound := n.isLt
    rw [State.length_spriteRows]; omega
  refine ⟨_, hexec, fun px py => ?pixels, ?range, ?collision, rfl, rfl, (s.drawSprite_onlyChanges _ _ _).advance⟩
  case pixels => exact pixel_drawRows _ _ _ hrows (s.fb, false) px py
  case range => rw [State.getV_advance, State.getV_drawSprite_flag]; exact collisionFlag_eq_zero_or_one _
  case collision =>
    rw [State.getV_advance, State.getV_drawSprite_flag, collisionFlag_eq_one_iff]
    exact collides_drawRows _ _ _ hrows s.fb

/-- Settles O30: the rows are checked before anything is drawn, and the reported address is that of the table of causes. -/
theorem drawOutOfRangeFaults : Obligations.DrawOutOfRangeFaults := by
  intro x y n s hpos hbad
  refine ⟨?fault, ?info⟩
  case fault => rw [exec_drw_eq, execDrw_of_not_fits (by omega), State.firstBadAddr_i]
  case info => rw [← State.firstBadAddr_i, toNat_firstBadAddr]

/-- Settles O31: the second draw reads the same rows, XOR with the same bit twice is the identity, and the pixels set under a 1 bit at the
second draw are those clear under it before the first. -/
theorem drawTwiceRestores : Obligations.DrawTwiceRestores := by
  intro x y n s hfit
  obtain ⟨t, hexec, hpix, -, -, -, -, hparts, -⟩ := drawResult x y n s hfit
  refine ⟨t, hexec, fun hx hy => ?_⟩
  have hindex : t.i = s.i := hparts .index (by decide)
  have hrows := State.spriteRows_congr (hparts .index (by decide)) (hparts .memory (by decide)) n.toNat
  obtain ⟨u, hexec', hpix', -, hflag', -⟩ := drawResult x y n t (by rwa [hindex])
  rw [hx, hy, hrows] at hpix' hflag'
  refine ⟨u, hexec', fun px py => ?restored, hflag'.trans (exists_congr fun px => exists_congr fun py => ?collision)⟩
  case restored => rw [hpix', hpix, Bool.xor_assoc, Bool.xor_self, Bool.xor_false]
  case collision =>
    rw [hpix]
    cases s.fb.pixel px py <;> simp

end Sys2Proof.Machine
end

section
/-! PROOFS. Call and return together (spec/10_state.md section 3), memory as data and as instructions (spec/20_memory.md, R56 and R60;
spec/48_index_memory.md, EX5): the claims about a return after a call, a load and a fetch after a dump, and the canonical form. -/

namespace Sys2Proof.Machine

/-! ### Call and return -/

/-- Settles O20: the entry the call pushed is the newest one where the return pops. -/
theorem returnUndoesCall : Obligations.ReturnUndoesCall := by
  intro nnn ign s t u hroom hcall hstack hsp
  obtain ⟨t', hcall', -, hdepth, hnewest, -, -⟩ := (callResult nnn s).1 hroom
  obtain rfl : t' = t := by rw [hcall] at hcall'; exact (Host.Outcome.next.inj hcall').symm
  have hdepthU : u.sp.val = s.sp.val + 1 := by rw [hsp, hdepth]
  obtain ⟨w, hret, hpc, hdepthW, -, hframe⟩ := (returnResult ign u).1 (by omega)
  refine ⟨w, hret, ?target, Fin.ext (by omega), hframe⟩
  case target => simpa only [hpc, hstack, hdepthU, Nat.add_sub_cancel] using hnewest

/-! ### Dump, then load or fetch -/

/-- Settles O38: the load reads the addresses the dump wrote, register by register. -/
theorem dumpThenLoadRoundTrips : Obligations.DumpThenLoadRoundTrips := by
  intro x s hm hfit
  obtain ⟨t, hdump, hstored, -, -, hparts, -⟩ := (registerDumpResult x s hm).1 hfit
  refine ⟨t, hdump, fun u hmem hi => ?_⟩
  have hindex : u.i = s.i := hi.trans (hparts .index (by decide))
  obtain ⟨w, hload, hloaded, -, -, -⟩ := (registerLoadResult x u).1 (by rwa [hindex])
  refine ⟨w, hload, fun r hr => ?_⟩
  rw [hloaded r hr, hmem, hindex, hstored r hr]

/-- Settles O39: the two bytes at `PC` are the first two the dump stored. -/
theorem storeIsSeenByTheNextFetch : Obligations.StoreIsSeenByTheNextFetch := by
  intro x s hm hx hfit
  obtain ⟨t, hdump, hstored, -⟩ := (registerDumpResult x s hm).1 hfit
  refine ⟨t, hdump, fun u hmem hpc hhalt hwait => ⟨?word, step_of_fetches ⟨hhalt, hwait, ?range⟩⟩⟩
  case word =>
    have hhigh : Memory.read t.mem s.i.toNat = s.getV 0 := hstored 0 (Nat.zero_le _)
    have hlow : Memory.read t.mem (s.i.toNat + 1) = s.getV 1 := hstored 1 hx
    rw [State.wordAtPc, toNat_wordOfBytes, hmem, hpc, hhigh, hlow]
  case range => rw [hpc]; omega

/-! ### The canonical form -/

/-- A canonical memory that starts with a cell reads, below that cell, as an unlisted memory. -/
theorem Memory.read_cons_of_lt {c : Nat} {d : Byte} {m : Memory} {low a : Nat} (hm : Memory.wfFrom low ((c, d) :: m) = true)
    (ha : a < c) : Memory.read ((c, d) :: m) a = Memory.unlisted a := by
  simp only [Memory.wfFrom, Bool.and_eq_true] at hm
  rw [Memory.read, if_neg (Nat.ne_of_lt ha)]
  exact Memory.read_of_lt_wfFrom hm.2 (by omega)

/-- A canonical memory that starts with a cell does not read as unlisted there. -/
theorem Memory.read_cons_ne_unlisted {c : Nat} {d : Byte} {m : Memory} {low : Nat} (hm : Memory.wfFrom low ((c, d) :: m) = true) :
    Memory.read ((c, d) :: m) c ≠ Memory.unlisted c := by
  simp only [Memory.wfFrom, Bool.and_eq_true, bne_iff_ne] at hm
  rw [Memory.read, if_pos rfl]
  exact hm.1.2

/-- Memories canonical from the same bound on that read alike are equal. -/
theorem Memory.eq_of_read_eq {m m' : Memory} {low low' : Nat} (hm : Memory.wfFrom low m = true)
    (hm' : Memory.wfFrom low' m' = true) (hread : ∀ a, Memory.read m a = Memory.read m' a) : m = m' := by
  induction m generalizing m' low low' with
  | nil =>
    cases m' with
    | nil => rfl
    | cons cell' m' => exact absurd (hread cell'.1).symm (Memory.read_cons_ne_unlisted hm')
  | cons cell m ih =>
    obtain ⟨c, d⟩ := cell
    cases m' with
    | nil => exact absurd (hread c) (Memory.read_cons_ne_unlisted hm)
    | cons cell' m' =>
      obtain ⟨c', d'⟩ := cell'
      obtain hlt | rfl | hgt := Nat.lt_trichotomy c c'
      · exact absurd ((hread c).trans (Memory.read_cons_of_lt hm' hlt)) (Memory.read_cons_ne_unlisted hm)
      · have hhead : d = d' := by simpa [Memory.read] using hread c
        simp only [Memory.wfFrom, Bool.and_eq_true] at hm hm'
        obtain ⟨-, htail⟩ := hm
        obtain ⟨-, htail'⟩ := hm'
        have hrest : ∀ a, Memory.read m a = Memory.read m' a := by
          intro a
          by_cases ha : a = c
          · rw [Memory.read_of_lt_wfFrom htail (by omega), Memory.read_of_lt_wfFrom htail' (by omega)]
          · simpa [Memory.read, ha] using hread a
        rw [hhead, ih htail htail' hrest]
      · exact absurd ((hread c').symm.trans (Memory.read_cons_of_lt hm hgt)) (Memory.read_cons_ne_unlisted hm')

/-- Settles O40: the first cells of two memories that read alike stand at the same address, since neither memory is unlisted there. -/
theorem canonicalMemoryIsUnique : Obligations.CanonicalMemoryIsUnique := fun _ _ hm hm' hread =>
  Memory.eq_of_read_eq hm hm' hread

end Sys2Proof.Machine
end

section
/-! PROOFS. Wait for key (spec/49_wait_key_unknown.md, R135): the arm of `exec`, how frames compose, which key a pending cycle picks, and the
claims about the entering cycle, a pending cycle and the whole wait. -/

namespace Sys2Proof.Machine

/-! ### The arm of `exec` -/

theorem exec_ldVxK_eq (x : Reg) (s : State) :
    exec (.ldVxK x) s = .next { s with wait := true, waitX := x, keyPrev := s.key } := rfl

/-! ### Frames -/

/-- What may change may be listed more widely. -/
theorem OnlyChanges.mono {parts parts' : List Part} {regs regs' : List Reg} {s t : State} (h : OnlyChanges parts regs s t)
    (hparts : parts ⊆ parts') (hregs : regs ⊆ regs') : OnlyChanges parts' regs' s t :=
  ⟨fun p hp => h.1 p fun hp' => hp (hparts hp'), fun r hr => h.2 r fun hr' => hr (hregs hr')⟩

/-- Frames compose. -/
theorem OnlyChanges.trans {parts : List Part} {regs : List Reg} {s t u : State} (h : OnlyChanges parts regs s t)
    (h' : OnlyChanges parts regs t u) : OnlyChanges parts regs s u :=
  ⟨fun p hp => Part.same_trans (h.1 p hp) (h'.1 p hp), fun r hr => (h'.2 r hr).trans (h.2 r hr)⟩

/-- A new wait state changes the wait state only (R34). -/
theorem State.withWait_onlyChanges (s : State) (wait : Bool) (waitX : Reg) (keyPrev : Vector Bool 16) :
    OnlyChanges [.waiting] [] s { s with wait := wait, waitX := waitX, keyPrev := keyPrev } := by
  refine ⟨fun p hp => ?_, fun _ _ => rfl⟩
  have hsame := p.same_refl s
  cases p with
  | waiting => simp at hp
  | _ => exact hsame

/-- `setKey` changes the keys only (R187). -/
theorem setKey_onlyChanges (k : Fin 16) (b : Bool) (s : State) : OnlyChanges [.keys] [] s (setKey k b s) := by
  refine ⟨fun p hp => ?_, fun _ _ => rfl⟩
  have hsame := p.same_refl s
  cases p with
  | keys => simp at hp
  | _ => exact hsame

/-! ### The picked key -/

theorem mem_keyIndices (k : Fin 16) : k ∈ keyIndices := by
  revert k; decide

/-- The test of a newly pressed key: down now, up at the sample before (R135). -/
theorem newlyPressed_iff (now prev : Bool) : (now && !prev) = true ↔ now = true ∧ prev = false := by
  rw [Bool.and_eq_true, Bool.not_eq_true']

/-- No key newly pressed, no key picked. -/
theorem keyPick_newKeys_eq_none {prev now : Vector Bool 16} (h : ∀ k : Fin 16, ¬(now[k] = true ∧ prev[k] = false)) :
    keyPick (newKeys prev now) = none := by
  have hempty : newKeys prev now = [] := List.filter_eq_nil_iff.mpr fun k _ => mt (newlyPressed_iff _ _).mp (h k)
  rw [hempty]; rfl

/-- The lowest newly pressed key is the one picked, since the indices are tried from the lowest on. -/
theorem keyPick_newKeys_eq_some {prev now : Vector Bool 16} {k : Fin 16} (hnow : now[k] = true) (hprev : prev[k] = false)
    (hlow : ∀ j : Fin 16, j < k → ¬(now[j] = true ∧ prev[j] = false)) : keyPick (newKeys prev now) = some k := by
  have hget : ∀ j : Fin 16, keyIndices[j.val]? = some j := by decide
  rw [keyPick, newKeys, List.head?_filter, List.find?_eq_some_iff_getElem]
  obtain ⟨hlt, hk⟩ := List.getElem?_eq_some_iff.mp (hget k)
  refine ⟨(newlyPressed_iff _ _).mpr ⟨hnow, hprev⟩, k.val, hlt, hk, fun j hj => ?_⟩
  have hlt16 : j < 16 := Nat.lt_trans hj k.isLt
  obtain ⟨_, hj'⟩ := List.getElem?_eq_some_iff.mp (hget ⟨j, hlt16⟩)
  rw [hj']
  exact (Bool.not_eq_true' _).mpr (Bool.eq_false_iff.mpr (mt (newlyPressed_iff _ _).mp (hlow ⟨j, hlt16⟩ hj)))

/-! ### A pending cycle -/

theorem step_of_wait_none {s : State} (hhalt : s.halt = false) (hwait : s.wait = true)
    (hpick : keyPick (newKeys s.keyPrev s.key) = none) : step s = .next { s with keyPrev := s.key } := by
  rw [step_of_wait hhalt hwait, pendingStep, hpick]

theorem step_of_wait_some {s : State} {k : Fin 16} (hhalt : s.halt = false) (hwait : s.wait = true)
    (hpick : keyPick (newKeys s.keyPrev s.key) = some k) :
    step s = .next { s.setV s.waitX (BitVec.ofNat 8 k.val) with wait := false, keyPrev := s.key }.advance := by
  rw [step_of_wait hhalt hwait, pendingStep, hpick]

/-- A cycle that ends waiting reports it. -/
theorem outcomeOf_of_wait {s t : State} (hs : s.halt = false) (ht : t.halt = false) (hwait : t.wait = true) :
    outcomeOf s t = .waiting := by
  simp only [outcomeOf, hs, ht, hwait, Bool.false_eq_true, if_false, if_true]

/-- A cycle that ends a wait reports Ok. -/
theorem outcomeOf_of_wait_ended {s t : State} (hs : s.halt = false) (ht : t.halt = false) (hwait : s.wait = true)
    (hended : t.wait = false) : outcomeOf s t = .ok := by
  simp only [outcomeOf, hs, ht, hwait, hended, Bool.false_eq_true, if_false, if_true]

/-- An operation that changes nothing may be repeated. -/
theorem runOps_replicate_of_fixed {op : HostOp} {s : State} (h : applyOp op s = .next s) (n : Nat) :
    runOps (List.replicate n op) s = .next s := by
  induction n with
  | zero => rfl
  | succ n ih => rw [List.replicate_succ, runOps, h]; exact ih

/-! ### The obligations -/

/-- Settles O41: the entering cycle writes the wait state and nothing else. -/
theorem waitForKeyEnters : Obligations.WaitForKeyEnters := fun x s =>
  ⟨_, exec_ldVxK_eq x s, rfl, rfl, rfl, rfl, s.withWait_onlyChanges true x s.key⟩

/-- Settles O42: the premises of the two clauses decide which key is picked. -/
theorem pendingWaitResolves : Obligations.PendingWaitResolves := by
  refine fun s hhalt hwait => ⟨fun hnone => ?waits, fun k hnow hprev hlow => ?ends⟩
  case waits =>
    have hstep := step_of_wait_none hhalt hwait (keyPick_newKeys_eq_none hnone)
    exact ⟨_, hstep, hwait, rfl, rfl, rfl, s.withWait_onlyChanges s.wait s.waitX s.key,
      (cycleOutcome_of_step hstep).trans (congrArg some (outcomeOf_of_wait hhalt hhalt hwait))⟩
  case ends =>
    have hstep := step_of_wait_some hhalt hwait (keyPick_newKeys_eq_some hnow hprev hlow)
    have hwritten := (s.setV_onlyChanges s.waitX (BitVec.ofNat 8 k.val)).mono (List.nil_subset [.waiting]) (List.Subset.refl _)
    have hended := ((s.setV s.waitX (BitVec.ofNat 8 k.val)).withWait_onlyChanges false s.waitX s.key).mono
      (List.Subset.refl _) (List.nil_subset [s.waitX])
    refine ⟨_, hstep, ?value, rfl, rfl, rfl, rfl, (hwritten.trans hended).advance,
      (cycleOutcome_of_step hstep).trans (congrArg some (outcomeOf_of_wait_ended hhalt hhalt hwait rfl))⟩
    case value =>
      have hk : (BitVec.ofNat 8 k.val).toNat = k.val := Nat.mod_eq_of_lt (by omega)
      exact (congrArg BitVec.toNat ((State.getV_setV s s.waitX s.waitX _).trans (if_pos rfl))).trans hk

/-- Settles O43: the entry samples the keys, so a cycle without a key change is a fixed point, and the pressed key is then the only newly
pressed one. -/
theorem waitForKeyCompletes : Obligations.WaitForKeyCompletes := by
  intro x k s hhalt hup
  obtain ⟨t, hexec, hwait, hwaitX, hsample, hpc, hentry⟩ := waitForKeyEnters x s
  have hkey : t.key = s.key := hentry.1 .keys (by decide)
  have hrunning : t.halt = false := (hentry.1 .faultState (by decide)).1.trans hhalt
  refine ⟨t, hexec, hpc, ?stays, ?ends⟩
  case stays =>
    have hnone : keyPick (newKeys t.keyPrev t.key) = none := keyPick_newKeys_eq_none fun j => by simp [hsample, hkey]
    have hsame : ({ t with keyPrev := t.key } : State) = t :=
      congrArg (fun sample : Vector Bool 16 => ({ t with keyPrev := sample } : State)) (hkey.trans hsample.symm)
    have hfixed : applyOp .cycle t = .next t := (step_of_wait_none hrunning hwait hnone).trans (congrArg _ hsame)
    exact runOps_replicate_of_fixed hfixed
  case ends =>
    have hpressed : ∀ j : Fin 16, (setKey k true t).key[j] = if j = k then true else s.key[j] := fun j => by
      simp [setKey, hkey, Vector.getElem_set, Fin.ext_iff, eq_comm]
    have hprev : (setKey k true t).keyPrev = s.key := hsample
    obtain ⟨u, hstep, hvalue, hended, -, -, hpc', hframe, -⟩ := (pendingWaitResolves (setKey k true t) hrunning hwait).2 k
      (by rw [hpressed, if_pos rfl]) (by rw [hprev, hup])
      (fun j hj => by rw [hpressed, if_neg (Fin.ne_of_lt hj), hprev]; simp)
    refine ⟨u, hstep, ?value, ?pc, hended, ?keys, ?frame⟩
    case value => rwa [show (setKey k true t).waitX = x from hwaitX] at hvalue
    case pc => rw [hpc', ← hpc]; rfl
    case keys => rw [← hkey]; exact hframe.1 .keys (by decide)
    case frame =>
      rw [show (setKey k true t).waitX = x from hwaitX] at hframe
      have hentry' := hentry.mono (parts' := [.waiting, .keys]) (by decide) (List.nil_subset [x])
      have hkeys' := (setKey_onlyChanges k true t).mono (parts' := [.waiting, .keys]) (by decide) (List.nil_subset [x])
      exact (hentry'.trans hkeys').trans (hframe.mono (by decide) (List.Subset.refl _))

end Sys2Proof.Machine
end

section
/-! PROOFS. What every instruction does (spec/10_state.md R23, spec/60_exceptions.md R172 and R173): it raises the fault the table of causes
names, or it completes as the tables of `PC` cases and of changed pieces say; and the claims about all 34 instructions at once. -/

namespace Sys2Proof.Machine

/-! ### What completing means -/

/-- From `s` to `t` instruction `i` ran without a fault: the tables' `PC` and frame, and what the frame leaves unsaid about the
pieces of state `i` may change. -/
structure Completes (i : Instr) (s t : State) : Prop where
  /-- `PC` is the table's (R23). -/
  pc : t.pc = pcAfter s i
  /-- Nothing changes but what is listed for the instruction. -/
  frame : OnlyChanges (changedParts i) (writtenRegs i) s t
  /-- `DIRTY` is never cleared (R32). -/
  dirty : s.dirty = true → t.dirty = true
  /-- `DT` is kept or loaded by its set instruction (R128). -/
  delay : t.dt = s.dt ∨ ∃ x, i = .ldDtVx x ∧ t.dt = s.getV x
  /-- `ST` is kept or loaded by its set instruction (R129). -/
  sound : t.st = s.st ∨ ∃ x, i = .ldStVx x ∧ t.st = s.getV x
  /-- Memory stays in its canonical form. -/
  canonical : Memory.wf s.mem = true → Memory.wf t.mem = true
  /-- A stack entry is kept or is the address behind the instruction (R103). -/
  stack : ∀ k : Fin 16, t.stack[k] = s.stack[k] ∨ t.stack[k] = s.pc + 2

/-- An instruction that touches neither `DIRTY`, a timer, memory nor the stack completes when its `PC` and its frame are the tables'. -/
theorem Completes.of_kept {i : Instr} {s t : State} (hpc : t.pc = pcAfter s i)
    (hframe : OnlyChanges (changedParts i) (writtenRegs i) s t) (hdirty : t.dirty = s.dirty := by rfl)
    (hdelay : t.dt = s.dt := by rfl) (hsound : t.st = s.st := by rfl) (hmem : t.mem = s.mem := by rfl)
    (hstack : t.stack = s.stack := by rfl) : Completes i s t where
  pc := hpc
  frame := hframe
  dirty := fun h => hdirty.trans h
  delay := .inl hdelay
  sound := .inl hsound
  canonical := fun h => by rwa [hmem]
  stack := fun k => .inl (by rw [hstack])

/-- An instruction that stores a block that fits, and advances. -/
theorem Completes.of_writeMany {i : Instr} {s : State} {bs : List Byte} (hfit : s.i.toNat + bs.length ≤ 4096)
    (hpc : pcAfter s i = s.pc + 2) (hframe : changedParts i = [.memory] ∧ writtenRegs i = []) :
    Completes i s (s.setMem (Memory.writeMany s.mem s.i.toNat bs)).advance where
  pc := hpc.symm
  frame := by rw [hframe.1, hframe.2]; exact (s.setMem_onlyChanges _).advance
  dirty := id
  delay := .inl rfl
  sound := .inl rfl
  canonical := fun hm => Memory.wf_writeMany hm (.inr hfit)
  stack := fun _ => .inl rfl

/-! ### The values of the table of `PC` cases -/

theorem addrImm_eq_ofNat (nnn : Addr12) : addrImm nnn = BitVec.ofNat 16 nnn.toNat := (BitVec.ofNat_toNat 16 nnn).symm

theorem byteToWord_eq_ofNat (b : Byte) : byteToWord b = BitVec.ofNat 16 b.toNat := (BitVec.ofNat_toNat 16 b).symm

theorem offsetTarget_eq_ofNat (v0 : Byte) (nnn : Addr12) : offsetTarget v0 nnn = BitVec.ofNat 16 (v0.toNat + nnn.toNat) := by
  rw [offsetTarget, byteToWord_eq_ofNat, addrImm_eq_ofNat, BitVec.ofNat_add]

/-- `PC` after a return that finds an entry is the newest one. -/
theorem pcAfter_ret {s : State} {ign : Nibble} (h : 0 < s.sp.val) :
    pcAfter s (.ret ign) = s.stack[s.sp.val - 1]'(by have := s.sp.isLt; omega) := dif_pos h

/-- `PC` after a skip whose Boolean test decides the comparison `P`. -/
theorem State.skipIf_pc_of_iff (s : State) {taken : Bool} {P : Prop} [Decidable P] (htaken : taken = true ↔ P) :
    (s.skipIf taken).pc = if P then s.pc + 4 else s.pc + 2 := by
  simp only [State.skipIf_pc, htaken]

/-- The level of a key that exists. -/
theorem State.keyDown_of_lt {s : State} {b : Byte} (h : b.toNat < 16) : s.keyDown b = s.key[b.toNat] := dif_pos h

/-! ### The registers a load writes -/

theorem mem_writtenRegs_load {x r : Reg} : r ∈ writtenRegs (.load x) ↔ r.toNat ≤ x.toNat := by
  have hr := r.isLt
  simp only [writtenRegs, List.mem_map, List.mem_range]
  constructor
  · rintro ⟨k, hk, rfl⟩
    exact Nat.le_trans (Nat.mod_le k 16) (Nat.le_of_lt_succ hk)
  · exact fun hle => ⟨r.toNat, Nat.lt_succ_of_le hle, by simp⟩

/-! ### Fault or completion -/

theorem exec_of_cause {i : Instr} {s : State} {kind : FaultKind} {info : Word} (h : faultCause s i = some (kind, info)) :
    exec i s = .next (s.faulted kind info (encode i)) := by
  cases i with
  | drw x y n =>
    obtain ⟨⟨hpos, hbad⟩, ⟨⟩⟩ := Option.ite_some_none_eq_some.mp h
    exact (drawOutOfRangeFaults x y n s hpos hbad).1
  | ldB x =>
    obtain ⟨hbad, ⟨⟩⟩ := Option.ite_some_none_eq_some.mp h
    rw [exec_ldB_eq, execLdB_of_not_fits (by omega), State.firstBadAddr_i]
  | dump x =>
    obtain ⟨hbad, ⟨⟩⟩ := Option.ite_some_none_eq_some.mp h
    rw [exec_dump_eq, execDump_of_not_fits (by omega), State.firstBadAddr_i]
  | load x =>
    obtain ⟨hbad, ⟨⟩⟩ := Option.ite_some_none_eq_some.mp h
    exact (registerLoadResult x s).2 hbad
  | skp x =>
    obtain ⟨hbad, ⟨⟩⟩ := Option.ite_some_none_eq_some.mp h
    rw [exec_skp_eq, execSkp_of_ge hbad, byteToWord_eq_ofNat]
  | sknp x =>
    obtain ⟨hbad, ⟨⟩⟩ := Option.ite_some_none_eq_some.mp h
    rw [exec_sknp_eq, execSknp_of_ge hbad, byteToWord_eq_ofNat]
  | call nnn =>
    obtain ⟨hfull, ⟨⟩⟩ := Option.ite_some_none_eq_some.mp h
    exact (callResult nnn s).2 hfull
  | ret ign =>
    obtain ⟨hempty, ⟨⟩⟩ := Option.ite_some_none_eq_some.mp h
    exact (returnResult ign s).2 hempty
  | _ => cases h

/-- Where the table of causes names nothing, a branch on its condition is not taken. -/
theorem not_of_cause_none {P : Prop} [Decidable P] {c : FaultKind × Word} (h : (if P then some c else none) = none) : ¬P := by
  intro hP
  rw [if_pos hP] at h
  cases h

theorem exec_completes {i : Instr} {s : State} (h : faultCause s i = none) : ∃ t, exec i s = .next t ∧ Completes i s t := by
  cases i with
  | cls ign =>
    exact ⟨_, exec_cls_eq ign s, rfl, s.clearScreen_onlyChanges.advance, fun _ => rfl, .inl rfl, .inl rfl, id, fun _ => .inl rfl⟩
  | ret ign =>
    have hpos : 0 < s.sp.val := Nat.pos_of_ne_zero (not_of_cause_none h)
    exact ⟨_, (exec_ret_eq ign s).trans (execRet_of_pos hpos),
      .of_kept (pcAfter_ret hpos).symm (s.withStackPc_onlyChanges _ _ _)⟩
  | jp nnn => exact ⟨_, exec_jp_eq nnn s, .of_kept (addrImm_eq_ofNat nnn) ((OnlyChanges.refl _ _ s).setPc _)⟩
  | call nnn =>
    have hroom : s.sp.val < 16 := by
      have hdepth := s.sp.isLt
      have hfull : ¬s.sp.val = 16 := not_of_cause_none h
      omega
    refine ⟨_, (exec_call_eq nnn s).trans (execCall_of_lt hroom), addrImm_eq_ofNat nnn, s.withStackPc_onlyChanges _ _ _, id,
      .inl rfl, .inl rfl, id, fun k => ?_⟩
    by_cases hk : s.sp.val = k.val
    · exact .inr (by simp [hk])
    · exact .inl (Vector.getElem_set_ne hroom k.isLt hk)
  | seImm x kk => exact ⟨_, exec_seImm_eq x kk s, .of_kept (s.skipIf_pc_of_iff beq_iff_eq) (s.skipIf_onlyChanges _)⟩
  | sneImm x kk => exact ⟨_, exec_sneImm_eq x kk s, .of_kept (s.skipIf_pc_of_iff bne_iff_ne) (s.skipIf_onlyChanges _)⟩
  | seReg x y ign => exact ⟨_, exec_seReg_eq x y ign s, .of_kept (s.skipIf_pc_of_iff beq_iff_eq) (s.skipIf_onlyChanges _)⟩
  | sneReg x y ign => exact ⟨_, exec_sneReg_eq x y ign s, .of_kept (s.skipIf_pc_of_iff bne_iff_ne) (s.skipIf_onlyChanges _)⟩
  | ldImm x kk => exact ⟨_, exec_ldImm_eq x kk s, .of_kept rfl (s.setV_onlyChanges x _).advance⟩
  | addImm x kk => exact ⟨_, exec_addImm_eq x kk s, .of_kept rfl (s.setV_onlyChanges x _).advance⟩
  | ldReg x y => exact ⟨_, exec_ldReg_eq x y s, .of_kept rfl (s.setV_onlyChanges x _).advance⟩
  | or x y => exact ⟨_, exec_or_eq x y s, .of_kept rfl (s.setV_onlyChanges x _).advance⟩
  | and x y => exact ⟨_, exec_and_eq x y s, .of_kept rfl (s.setV_onlyChanges x _).advance⟩
  | xor x y => exact ⟨_, exec_xor_eq x y s, .of_kept rfl (s.setV_onlyChanges x _).advance⟩
  | addReg x y => exact ⟨_, exec_addReg_eq x y s, .of_kept rfl (s.setFlagThen_onlyChanges x _ _).advance⟩
  | sub x y => exact ⟨_, exec_sub_eq x y s, .of_kept rfl (s.setFlagThen_onlyChanges x _ _).advance⟩
  | shr x ign => exact ⟨_, exec_shr_eq x ign s, .of_kept rfl (s.setFlagThen_onlyChanges x _ _).advance⟩
  | subn x y => exact ⟨_, exec_subn_eq x y s, .of_kept rfl (s.setFlagThen_onlyChanges x _ _).advance⟩
  | shl x ign => exact ⟨_, exec_shl_eq x ign s, .of_kept rfl (s.setFlagThen_onlyChanges x _ _).advance⟩
  | skp x =>
    have hkey : (s.getV x).toNat < 16 := Nat.lt_of_not_le (not_of_cause_none h)
    exact ⟨_, (exec_skp_eq x s).trans (execSkp_of_lt hkey),
      .of_kept (s.skipIf_pc_of_iff (by rw [State.keyDown_of_lt hkey])) (s.skipIf_onlyChanges _)⟩
  | sknp x =>
    have hkey : (s.getV x).toNat < 16 := Nat.lt_of_not_le (not_of_cause_none h)
    exact ⟨_, (exec_sknp_eq x s).trans (execSknp_of_lt hkey),
      .of_kept (s.skipIf_pc_of_iff (by rw [State.keyDown_of_lt hkey, Bool.not_eq_true'])) (s.skipIf_onlyChanges _)⟩
  | ldI nnn => exact ⟨_, exec_ldI_eq nnn s, .of_kept rfl (s.setI_onlyChanges _).advance⟩
  | jpV0 nnn => exact ⟨_, exec_jpV0_eq nnn s, .of_kept (offsetTarget_eq_ofNat _ nnn) ((OnlyChanges.refl _ _ s).setPc _)⟩
  | rnd x kk => exact ⟨_, exec_rnd_eq x kk s, .of_kept rfl (rndWith_onlyChanges _ x kk s _)⟩
  | drw x y n =>
    have hfit : ¬(0 < n.toNat ∧ 4096 ≤ s.i.toNat + n.toNat - 1) := not_of_cause_none h
    exact ⟨_, (exec_drw_eq x y n s).trans (execDrw_of_fits (by omega)), rfl, (s.drawSprite_onlyChanges _ _ _).advance,
      fun _ => rfl, .inl rfl, .inl rfl, id, fun _ => .inl rfl⟩
  | ldVxDt x => exact ⟨_, exec_ldVxDt_eq x s, .of_kept rfl (s.setV_onlyChanges x _).advance⟩
  | ldDtVx x =>
    exact ⟨_, exec_ldDtVx_eq x s, rfl, (s.setDt_onlyChanges _).advance, id, .inr ⟨x, rfl, rfl⟩, .inl rfl, id, fun _ => .inl rfl⟩
  | ldStVx x =>
    exact ⟨_, exec_ldStVx_eq x s, rfl, (s.setSt_onlyChanges _).advance, id, .inl rfl, .inr ⟨x, rfl, rfl⟩, id, fun _ => .inl rfl⟩
  | addI x => exact ⟨_, exec_addI_eq x s, .of_kept rfl (s.setI_onlyChanges _).advance⟩
  | ldF x => exact ⟨_, exec_ldF_eq x s, .of_kept rfl (s.setI_onlyChanges _).advance⟩
  | ldB x =>
    have hfit : s.i.toNat + 3 ≤ 4096 := Nat.lt_of_not_le (not_of_cause_none h)
    exact ⟨_, (exec_ldB_eq x s).trans (execLdB_of_fits hfit), .of_writeMany hfit rfl ⟨rfl, rfl⟩⟩
  | dump x =>
    have hfit : s.i.toNat + x.toNat + 1 ≤ 4096 := Nat.lt_of_not_le (not_of_cause_none h)
    exact ⟨_, (exec_dump_eq x s).trans (execDump_of_fits hfit), .of_writeMany (by rw [length_firstRegs]; omega) rfl ⟨rfl, rfl⟩⟩
  | load x =>
    have hfit : s.i.toNat + x.toNat + 1 ≤ 4096 := Nat.lt_of_not_le (not_of_cause_none h)
    refine ⟨_, (exec_load_eq x s).trans (execLoad_of_fits hfit), .of_kept rfl ⟨fun p _ => s.withV_advance_same _ p, fun r hr => ?_⟩⟩
    have habove : ¬r.toNat < x.toNat + 1 := fun hlt => hr (mem_writtenRegs_load.mpr (Nat.le_of_lt_succ hlt))
    exact (s.getV_fillRegs_readMany _ _ r).trans (if_neg habove)
  | ldVxK x => exact ⟨_, exec_ldVxK_eq x s, .of_kept rfl (s.withWait_onlyChanges _ _ _)⟩

/-! ### What the tables never list -/

/-- No instruction writes the keys, the configuration or the fault record by completing. -/
theorem not_mem_changedParts (i : Instr) :
    Part.keys ∉ changedParts i ∧ Part.config ∉ changedParts i ∧ Part.faultState ∉ changedParts i := by
  cases i <;> simp [changedParts]

/-- Only wait for key changes the wait state. -/
theorem eq_ldVxK_of_waiting_mem {i : Instr} (h : Part.waiting ∈ changedParts i) : ∃ x, i = .ldVxK x := by
  cases i with
  | ldVxK x => exact ⟨x, rfl⟩
  | _ => simp [changedParts] at h

/-- The table of causes names neither the empty record nor a failed load. -/
theorem kind_of_cause {i : Instr} {s : State} {kind : FaultKind} {info : Word} (h : faultCause s i = some (kind, info)) :
    kind ≠ .none ∧ kind ≠ .loadError := by
  cases i with
  | drw | ldB | dump | load | skp | sknp | call | ret =>
    obtain ⟨-, ⟨⟩⟩ := Option.ite_some_none_eq_some.mp h
    decide
  | _ => cases h

theorem Completes.faultState_same {i : Instr} {s t : State} (h : Completes i s t) : t.halt = s.halt ∧ t.fault = s.fault :=
  h.frame.1 .faultState (not_mem_changedParts i).2.2

/-! ### The obligations -/

/-- Settles O44: the table of causes decides between the fault and completion, and completing keeps `HALT` and `FAULT`. -/
theorem instructionFaultsExactlyWhen : Obligations.InstructionFaultsExactlyWhen := by
  refine fun i s hhalt => ⟨fun kind info hcause => exec_of_cause hcause, fun hnone => ?completes⟩
  case completes =>
    obtain ⟨t, hexec, hcompletes⟩ := exec_completes hnone
    obtain ⟨hhalt', hfault'⟩ := hcompletes.faultState_same
    exact ⟨t, hexec, hhalt'.trans hhalt, hfault'⟩

/-- Settles O46: an instruction completes within its frame or takes a fault, which changes `HALT` and `FAULT` only. -/
theorem everyInstructionKeepsItsFrame : Obligations.EveryInstructionKeepsItsFrame := by
  intro i s t hexec
  cases hcause : faultCause s i with
  | none =>
    obtain ⟨t', hexec', hcompletes⟩ := exec_completes hcause
    obtain rfl : t' = t := Host.Outcome.next.inj (hexec'.symm.trans hexec)
    exact .inl ⟨hcompletes.faultState_same.1, hcompletes.frame⟩
  | some cause =>
    obtain ⟨kind, info⟩ := cause
    obtain rfl : s.faulted kind info (encode i) = t := Host.Outcome.next.inj ((exec_of_cause hcause).symm.trans hexec)
    exact .inr ⟨rfl, rfl, s.faulted_onlyChanges kind info (encode i)⟩

end Sys2Proof.Machine
end

section
/-! PROOFS. The cycle (spec/60_exceptions.md sections 1 to 3): everything a cycle can do, as one relation between its two states, the outcomes
it reports, and the claims about every cycle. -/

namespace Sys2Proof.Machine

/-! ### Everything a cycle can do -/

/-- How a cycle from `s` can end in the given state, in the priority of R178. -/
inductive CycleEffect (s : State) : State → Prop where
  /-- A halted machine does nothing (R176). -/
  | halted (hhalt : s.halt = true) : CycleEffect s s
  /-- A pending wait goes on (R135). -/
  | waits (hhalt : s.halt = false) (hwait : s.wait = true) : CycleEffect s { s with keyPrev := s.key }
  /-- A pending wait ends with key `k` (R135). -/
  | resumes (hhalt : s.halt = false) (hwait : s.wait = true) (k : Fin 16) :
      CycleEffect s { s.setV s.waitX (BitVec.ofNat 8 k.val) with wait := false, keyPrev := s.key }.advance
  /-- A fatal fault is taken, with a cause of a cycle (R172, R173). -/
  | faults (hhalt : s.halt = false) (hwait : s.wait = false) (kind : FaultKind) (info word : Word)
      (hkind : kind ≠ .none ∧ kind ≠ .loadError) : CycleEffect s (s.faulted kind info word)
  /-- An instruction completes. -/
  | completes (hfetch : s.Fetches) (i : Instr) (hword : decode s.wordAtPc = .instr i) (t : State) (h : Completes i s t) :
      CycleEffect s t
  /-- An unknown opcode is skipped (R136). -/
  | skips (hfetch : s.Fetches) (why : Reject) (hword : decode s.wordAtPc = .rejected why) : CycleEffect s s.advance

theorem exists_step (s : State) : ∃ t, step s = .next t ∧ CycleEffect s t := by
  obtain ⟨hhalt, hstep⟩ | ⟨hhalt, hwait, hstep⟩ | ⟨hhalt, hwait, -, hstep⟩ | ⟨i, hfetch, hword, hstep⟩ |
    ⟨why, hfetch, hword, hstep⟩ := step_cases s
  · exact ⟨s, hstep, .halted hhalt⟩
  · obtain ⟨-, hpending⟩ | ⟨k, -, hpending⟩ := pendingStep_cases s
    · exact ⟨_, hstep.trans hpending, .waits hhalt hwait⟩
    · exact ⟨_, hstep.trans hpending, .resumes hhalt hwait k⟩
  · exact ⟨_, hstep, .faults hhalt hwait _ _ _ (by decide)⟩
  · have ⟨hhalt, hwait, _⟩ := hfetch
    cases hcause : faultCause s i with
    | none =>
      obtain ⟨t, hexec, hcompletes⟩ := exec_completes hcause
      exact ⟨t, hstep.trans hexec, .completes hfetch i hword t hcompletes⟩
    | some cause =>
      obtain ⟨kind, info⟩ := cause
      exact ⟨_, hstep.trans (exec_of_cause hcause), .faults hhalt hwait kind info _ (kind_of_cause hcause)⟩
  · have ⟨hhalt, hwait, _⟩ := hfetch
    cases hstrict : s.strict with
    | true => exact ⟨_, hstep.trans (unknownOpcode_of_strict hstrict _), .faults hhalt hwait _ _ _ (by decide)⟩
    | false => exact ⟨_, hstep.trans (unknownOpcode_of_lenient hstrict _), .skips hfetch why hword⟩

theorem cycleEffect_of_step {s t : State} (h : step s = .next t) : CycleEffect s t := by
  obtain ⟨t', hstep, heffect⟩ := exists_step s
  rwa [Host.Outcome.next.inj (h.symm.trans hstep)]

/-! ### The obligations -/

/-- Settles O9: a fetching cycle decodes the word at `PC` and runs it. -/
theorem stepRunsTheDecodedInstruction : Obligations.StepRunsTheDecodedInstruction := by
  intro s i hfetch hword
  rw [step_of_fetches hfetch, runWord, hword]

/-- Settles O10: every effect of a cycle is a next state. -/
theorem cycleAlwaysCompletes : Obligations.CycleAlwaysCompletes := fun s =>
  (exists_step s).imp fun _ h => h.1

/-- Settles O11: the test of `HALT` comes first, in the cycle and in its outcome. -/
theorem haltedCycleChangesNothing : Obligations.HaltedCycleChangesNothing := fun _ hhalt =>
  ⟨step_of_halt hhalt, (cycleOutcome_of_step (step_of_halt hhalt)).trans (congrArg some (if_pos hhalt))⟩

/-- Settles O12: the first missing byte is at `max(PC, 4096)`. -/
theorem fetchOutOfRangeFaults : Obligations.FetchOutOfRangeFaults := by
  intro s hhalt hwait hpc
  have hstep := step_of_fetch_fault hhalt hwait (by omega)
  refine ⟨firstBadAddr s.pc, ?info, hstep, (cycleOutcome_of_step hstep).trans (congrArg some (outcomeOf_faulted hhalt _ _ _))⟩
  case info =>
    rw [toNat_firstBadAddr]
    split <;> omega

/-- Settles O14: only completing an instruction could touch them, and no instruction's frame lists the keys or the configuration. -/
theorem cycleLeavesHostStateAlone : Obligations.CycleLeavesHostStateAlone := by
  intro s t hstep
  cases cycleEffect_of_step hstep with
  | halted | waits | resumes | faults | skips => exact ⟨rfl, rfl, rfl, id, .inl rfl, .inl rfl⟩
  | completes hfetch i hword t h =>
    obtain ⟨hkeys, hconfig, -⟩ := not_mem_changedParts i
    obtain ⟨hstrict, hfont⟩ := h.frame.1 .config hconfig
    refine ⟨h.frame.1 .keys hkeys, hstrict, hfont, h.dirty, h.delay.imp_right ?delay, h.sound.imp_right ?sound⟩
    case delay =>
      rintro ⟨x, rfl, hvalue⟩
      exact ⟨x, hfetch, hword, hvalue⟩
    case sound =>
      rintro ⟨x, rfl, hvalue⟩
      exact ⟨x, hfetch, hword, hvalue⟩

/-- Settles O15: a fetching cycle faults, completes its instruction or skips an unknown opcode, and the word at `PC` tells the last two
apart. -/
theorem programCounterAfterCycle : Obligations.ProgramCounterAfterCycle := by
  intro s t hfetch hstep
  have ⟨hhalt, hwait, _⟩ := hfetch
  cases cycleEffect_of_step hstep with
  | halted h => simp [hhalt] at h
  | waits _ h => simp [hwait] at h
  | resumes _ h => simp [hwait] at h
  | faults => exact ⟨fun _ => rfl, nofun, nofun⟩
  | completes _ i hword t h =>
    have hrunning : t.halt = false := h.faultState_same.1.trans hhalt
    refine ⟨fun h' => by simp [hrunning] at h', fun _ j hj => ?_, fun _ why hwhy => ?_⟩
    · obtain rfl : i = j := Decoded.instr.inj (hword.symm.trans hj)
      exact h.pc
    · cases hword.symm.trans hwhy
  | skips _ why hword =>
    refine ⟨fun h' => ?_, fun _ j hj => ?_, fun _ _ _ => rfl⟩
    · cases hhalt.symm.trans h'
    · cases hword.symm.trans hj

/-- Settles O45: of all effects of a running machine's cycle only the fault sets `HALT`. -/
theorem fatalFaultIsPrecise : Obligations.FatalFaultIsPrecise := by
  intro s t hstep hrunning hhalted
  cases cycleEffect_of_step hstep with
  | faults _ _ kind info word hkind =>
    exact ⟨rfl, hkind.1, hkind.2,
      (cycleOutcome_of_step hstep).trans (congrArg some (outcomeOf_faulted hrunning kind info word))⟩
  | completes _ i _ t h => cases (h.faultState_same.1.trans hrunning).symm.trans hhalted
  | halted | waits | resumes | skips => cases hrunning.symm.trans hhalted

end Sys2Proof.Machine
end

section
/-! PROOFS. The invariant (spec/10_state.md sections 2, 3 and 8): each effect of a cycle keeps it, and the reset states satisfy it. -/

namespace Sys2Proof.Machine

/-! ### The bound on `PC` -/

/-- The two advances from an address below the top of memory stay below 4100. -/
theorem toNat_pc_advance_le {pc : Word} (h : pc.toNat ≤ 4094) : (pc + 2).toNat ≤ 4096 ∧ (pc + 4).toNat ≤ 4098 := by
  rw [BitVec.toNat_add, BitVec.toNat_add]
  exact ⟨Nat.le_trans (Nat.mod_le _ _) (Nat.add_le_add_right h 2), Nat.le_trans (Nat.mod_le _ _) (Nat.add_le_add_right h 4)⟩

/-- The table of `PC` cases stays in range: jump with offset reaches furthest (R123). -/
theorem pcAfter_le {s : State} (hinv : s.Inv) (hpc : s.pc.toNat ≤ 4094) (i : Instr) : (pcAfter s i).toNat ≤ 4350 := by
  obtain ⟨hnext, hskip⟩ := toNat_pc_advance_le hpc
  cases i with
  | ret =>
    by_cases hpos : 0 < s.sp.val
    · rw [pcAfter_ret hpos]
      exact Nat.le_trans (hinv.stackRange ⟨s.sp.val - 1, by omega⟩) (by decide)
    · rw [pcAfter, dif_neg hpos]
      exact hinv.pcRange
  | jp nnn | call nnn =>
    have hnnn := nnn.isLt
    exact Nat.le_trans (Nat.mod_le _ _) (by omega)
  | jpV0 nnn =>
    have hv := (s.getV 0).isLt
    have hnnn := nnn.isLt
    exact Nat.le_trans (Nat.mod_le _ _) (by omega)
  | ldVxK => exact hinv.pcRange
  | seImm | sneImm | seReg | sneReg | skp | sknp =>
    simp only [pcAfter]
    split
    · exact Nat.le_trans hskip (by decide)
    · exact Nat.le_trans hnext (by decide)
  | _ => exact Nat.le_trans hnext (by decide)

/-! ### Each effect keeps the invariant -/

namespace State.Inv

variable {s t : State}

/-- Taking a fault records a reason and moves nothing. -/
theorem faulted (h : s.Inv) {kind : FaultKind} (hkind : kind ≠ .none) (info word : Word) : (s.faulted kind info word).Inv where
  memCanonical := h.memCanonical
  pcRange := h.pcRange
  stackRange := h.stackRange
  noFaultRunning := nofun
  faultWhenHalted := fun _ => hkind
  waitRange := h.waitRange

/-- The invariant leaves the registers, the keys, the timers, the pixels, `DIRTY` and the counter of draws free. -/
theorem congr (h : s.Inv) (hmem : t.mem = s.mem) (hpc : t.pc = s.pc) (hstack : t.stack = s.stack) (hhalt : t.halt = s.halt)
    (hfault : t.fault = s.fault) (hwait : t.wait = s.wait) : t.Inv where
  memCanonical := by rw [hmem]; exact h.memCanonical
  pcRange := by rw [hpc]; exact h.pcRange
  stackRange := by rw [hstack]; exact h.stackRange
  noFaultRunning := by rw [hhalt, hfault]; exact h.noFaultRunning
  faultWhenHalted := by rw [hhalt, hfault]; exact h.faultWhenHalted
  waitRange := by rw [hwait, hpc]; exact h.waitRange

/-- Memory may be replaced by another canonical one. -/
theorem setMem (h : s.Inv) {m : Memory} (hm : Memory.wf m = true) : (s.setMem m).Inv where
  memCanonical := hm
  pcRange := h.pcRange
  stackRange := h.stackRange
  noFaultRunning := h.noFaultRunning
  faultWhenHalted := h.faultWhenHalted
  waitRange := h.waitRange

/-- The advance of a machine that is not waiting stays in range below the top of memory. -/
theorem advance (h : s.Inv) (hwait : s.wait = false) (hpc : s.pc.toNat ≤ 4094) : s.advance.Inv where
  memCanonical := h.memCanonical
  pcRange := Nat.le_trans (toNat_pc_advance_le hpc).1 (by decide)
  stackRange := h.stackRange
  noFaultRunning := h.noFaultRunning
  faultWhenHalted := h.faultWhenHalted
  waitRange := fun h' => by cases hwait.symm.trans h'

/-- A wait may end. -/
theorem endWait (h : s.Inv) : ({ s with wait := false } : State).Inv where
  memCanonical := h.memCanonical
  pcRange := h.pcRange
  stackRange := h.stackRange
  noFaultRunning := h.noFaultRunning
  faultWhenHalted := h.faultWhenHalted
  waitRange := nofun

/-- Completing an instruction: `PC` by the table, pushed addresses from a fetched `PC`, and a wait begun only at it. -/
theorem completes (h : s.Inv) (hfetch : s.Fetches) {i : Instr} (hc : Completes i s t) : t.Inv := by
  obtain ⟨hrunning, hnowait, hpc⟩ := hfetch
  obtain ⟨hhalt, hfault⟩ := hc.faultState_same
  have hrunning' : t.halt = false := hhalt.trans hrunning
  refine ⟨hc.canonical h.memCanonical, ?pc, fun k => ?stack, fun _ => hfault.trans (h.noFaultRunning hrunning),
    fun h' => absurd h' (Bool.eq_false_iff.mp hrunning'), fun hwait => ?wait⟩
  case pc => rw [hc.pc]; exact pcAfter_le h hpc i
  case stack =>
    obtain hkept | hpushed := hc.stack k
    · rw [hkept]; exact h.stackRange k
    · rw [hpushed]; exact (toNat_pc_advance_le hpc).1
  case wait =>
    by_cases hmem : Part.waiting ∈ changedParts i
    · obtain ⟨x, rfl⟩ := eq_ldVxK_of_waiting_mem hmem
      rw [hc.pc]; exact hpc
    · obtain ⟨hsame, -, -⟩ := hc.frame.1 .waiting hmem
      cases hnowait.symm.trans (hsame.symm.trans hwait)

end State.Inv

/-- The reset state of every configuration satisfies the invariant. -/
theorem resetState_inv (font : Vector Byte Config.fontLen) (strict : Bool) : (resetState font strict).Inv where
  memCanonical := wf_installFont font
  pcRange := (by decide : State.reset.pc.toNat ≤ 4350)
  stackRange := (by decide : ∀ k : Fin 16, State.reset.stack[k].toNat ≤ 4096)
  noFaultRunning := fun _ => rfl
  faultWhenHalted := nofun
  waitRange := nofun

/-! ### The obligations -/

/-- Settles O54: by the effects of a cycle; a wait stands at a fetched `PC`, so ending it advances within the range. -/
theorem stepKeepsTheInvariant : Obligations.StepKeepsTheInvariant := by
  intro s t hinv hstep
  cases cycleEffect_of_step hstep with
  | halted => exact hinv
  | waits => exact hinv.congr rfl rfl rfl rfl rfl rfl
  | resumes hhalt hwait k =>
    have hended : ({ s.setV s.waitX (BitVec.ofNat 8 k.val) with wait := false, keyPrev := s.key } : State).Inv :=
      hinv.endWait.congr rfl rfl rfl rfl rfl rfl
    exact hended.advance rfl (hinv.waitRange hwait)
  | faults _ _ kind info word hkind => exact hinv.faulted hkind.1 info word
  | completes hfetch i _ t h => exact hinv.completes hfetch h
  | skips hfetch =>
    obtain ⟨-, hwait, hpc⟩ := hfetch
    exact hinv.advance hwait hpc

/-- Settles O2: `State.reset` is the reset state of the default configuration. -/
theorem resetSatisfiesInvariant : Obligations.ResetSatisfiesInvariant :=
  ⟨resetState_default ▸ resetState_inv defaultFont false, resetState_inv⟩

end Sys2Proof.Machine
end

section
/-! PROOFS. The host's operations (spec/60_exceptions.md section 5, spec/70_reset_and_hazards.md): what each changes, and the claims
about reset, loading, ticks, keys, `DIRTY` and the framebuffer read. -/

namespace Sys2Proof.Machine

/-! ### What each operation changes -/

/-- A tick changes the two timers only (R185). -/
theorem tickTimers_onlyChanges (s : State) : OnlyChanges [.delayTimer, .soundTimer] [] s (tickTimers s) := by
  refine ⟨fun p hp => ?_, fun _ _ => rfl⟩
  have hsame := p.same_refl s
  cases p with
  | delayTimer => simp at hp
  | soundTimer => simp at hp
  | _ => exact hsame

/-- `clearDirty` changes `DIRTY` only (R188). -/
theorem clearDirty_onlyChanges (s : State) : OnlyChanges [.dirty] [] s (clearDirty s) := by
  refine ⟨fun p hp => ?_, fun _ _ => rfl⟩
  have hsame := p.same_refl s
  cases p with
  | dirty => simp at hp
  | _ => exact hsame

/-- A program that fits is copied to address 512 (R202). -/
theorem loadProgram_of_fits {bytes : List Byte} (h : bytes.length ≤ 3584) (s : State) :
    loadProgram bytes s = (s.setMem (Memory.writeMany s.mem 512 bytes), .ok) := if_pos h

/-- A program too long is a fatal fault (R202). -/
theorem loadProgram_of_too_long {bytes : List Byte} (h : ¬bytes.length ≤ 3584) (s : State) :
    loadProgram bytes s = (s.faulted .loadError (loadErrorInfo bytes.length) 0, .loadError) := if_neg h

/-- A program that fits lies in memory from address 512 on. -/
theorem program_in_memory {bytes : List Byte} (h : bytes.length ≤ 3584) : bytes = [] ∨ 512 + bytes.length ≤ Config.memSize :=
  .inr (Nat.add_le_add_left h 512)

theorem applyOp_loadProgram_of_fits {bytes : List Byte} (h : bytes.length ≤ 3584) (s : State) :
    applyOp (.loadProgram bytes) s = .next (s.setMem (Memory.writeMany s.mem 512 bytes)) := by
  rw [applyOp, loadProgram_of_fits h]

theorem applyOp_loadProgram_of_too_long {bytes : List Byte} (h : ¬bytes.length ≤ 3584) (s : State) :
    applyOp (.loadProgram bytes) s = .next (s.faulted .loadError (loadErrorInfo bytes.length) 0) := by
  rw [applyOp, loadProgram_of_too_long h]

theorem toNat_loadErrorInfo (len : Nat) : (loadErrorInfo len).toNat = min len 65535 := Nat.mod_eq_of_lt (by omega)

/-! ### The framebuffer as a list -/

/-- The framebuffer read is the rows put one after another. -/
theorem readFramebuffer_eq_flatten (s : State) : readFramebuffer s = s.fb.flatten.toList := by
  simp [readFramebuffer, Vector.flatten, List.flatMap_def]; rfl

/-! ### The obligations -/

/-- Settles O1: each field is reset's, memory the configured `FONT`'s. -/
theorem hostResetValues : Obligations.HostResetValues := by
  refine fun s => ⟨fun r => ?regs, rfl, rfl, rfl, ?stack, rfl, rfl, fun a => ?font, fun a ha _ => ?zero, fun x y => ?pixels, rfl,
    rfl, rfl, ?keyPrev, rfl, rfl, rfl, rfl, rfl⟩
  case stack => exact (by decide : ∀ k : Fin 16, State.reset.stack[k] = 0)
  case keyPrev => exact (by decide : ∀ k : Fin 16, State.reset.keyPrev[k] = false)
  case regs => simp [State.getV, State.reset]
  case font => rw [hostReset_mem, read_installFont, dif_pos a.isLt]; rfl
  case zero => rw [hostReset_mem, read_installFont, dif_neg (Nat.not_lt.mpr ha)]
  case pixels => simp [Framebuffer.pixel, State.reset]

/-- Settles O50: a program that fits is one block from 512, within memory. -/
theorem loadProgramResult : Obligations.LoadProgramResult := by
  refine fun bytes s hm => ⟨fun hfit => ?fits, fun hlong => ?tooLong⟩
  case fits =>
    have hin := program_in_memory hfit
    rw [loadProgram_of_fits hfit]
    refine ⟨rfl, fun j hj => ?copied, fun a ha => ?kept, rfl, s.setMem_onlyChanges _⟩
    case copied =>
      rw [State.setMem_mem, Memory.read_writeMany hm hin, if_pos ⟨Nat.le_add_right .., by omega⟩, Nat.add_sub_cancel_left]
    case kept => rw [State.setMem_mem, Memory.read_writeMany hm hin, if_neg (by omega)]
  case tooLong =>
    rw [loadProgram_of_too_long (by omega)]
    exact ⟨rfl, _, toNat_loadErrorInfo _, rfl⟩

/-- Settles O47: one tick takes one from each timer that is not 0, and ticks do nothing else. -/
theorem ticksCountTimersDown : Obligations.TicksCountTimersDown := by
  intro n
  induction n with
  | zero => exact fun s => ⟨s, rfl, rfl, rfl, decide_eq_true_iff, rfl, OnlyChanges.refl _ _ s⟩
  | succ n ih =>
    intro s
    obtain ⟨t, hrun, hdelay, hsound, htone, hpc, hframe⟩ := ih (tickTimers s)
    have hdt : (tickTimers s).dt.toNat = s.dt.toNat - 1 := toNat_tickDown s.dt
    have hst : (tickTimers s).st.toNat = s.st.toNat - 1 := toNat_tickDown s.st
    exact ⟨t, hrun, by omega, by omega, htone.trans (by omega), hpc, (tickTimers_onlyChanges s).trans hframe⟩

/-- Settles O48: each operation writes one entry or one bit. -/
theorem setKeyAndClearDirtyResults : Obligations.SetKeyAndClearDirtyResults := by
  refine fun k b s => ⟨⟨?new, fun j hj => ?others, rfl, setKey_onlyChanges k b s⟩, rfl, rfl, clearDirty_onlyChanges s⟩
  case new => exact Vector.getElem_set_self k.isLt
  case others => exact Vector.getElem_set_ne k.isLt j.isLt fun h => hj (Fin.ext h.symm)

/-- Settles O49: the rows all have 64 pixels, so place `64 * y + x` lies in row `y` at `x`. -/
theorem framebufferIsReadRowMajor : Obligations.FramebufferIsReadRowMajor := by
  intro s
  rw [readFramebuffer_eq_flatten]
  refine ⟨Vector.length_toList, fun x y => ?_⟩
  have hplace : y.val * 64 + x.val < 32 * 64 := by omega
  have hrow : (y.val * 64 + x.val) / 64 = y.val := by omega
  have hcolumn : (y.val * 64 + x.val) % 64 = x.val := by omega
  rw [List.getElem?_eq_getElem (by rwa [Vector.length_toList]), Vector.getElem_toList, Vector.getElem_flatten hplace]
  simp only [hrow, hcolumn]
  rfl

end Sys2Proof.Machine
end

section
/-! PROOFS. Runs of host operations (spec/00_scope.md R7): what every operation keeps, a run keeps; the claims about the invariant, the
configuration, the halt and the parked machine (spec/70_reset_and_hazards.md R213). -/

namespace Sys2Proof.Machine

/-! ### Runs -/

/-- What every operation of a run establishes from it, a run establishes. -/
theorem exists_runOps {P : State → Prop} {ops : List HostOp}
    (hop : ∀ op ∈ ops, ∀ s, P s → ∃ t, applyOp op s = .next t ∧ P t) {s : State} (hs : P s) : ∃ t, runOps ops s = .next t ∧ P t := by
  induction ops generalizing s with
  | nil => exact ⟨s, rfl, hs⟩
  | cons op ops ih =>
    obtain ⟨u, happly, hu⟩ := hop op List.mem_cons_self s hs
    obtain ⟨t, hrun, ht⟩ := ih (fun op' hmem => hop op' (List.mem_cons_of_mem _ hmem)) hu
    exact ⟨t, by rw [runOps, happly]; exact hrun, ht⟩

/-- Every operation completes and keeps the configuration (R8, R36). -/
theorem applyOp_keeps_config (op : HostOp) (s : State) : ∃ t, applyOp op s = .next t ∧ t.strict = s.strict ∧ t.font = s.font := by
  cases op with
  | cycle =>
    obtain ⟨t, hstep, -⟩ := exists_step s
    obtain ⟨-, hstrict, hfont, -⟩ := cycleLeavesHostStateAlone s t hstep
    exact ⟨t, hstep, hstrict, hfont⟩
  | loadProgram bytes =>
    by_cases hfit : bytes.length ≤ 3584
    · exact ⟨_, applyOp_loadProgram_of_fits hfit s, rfl, rfl⟩
    · exact ⟨_, applyOp_loadProgram_of_too_long hfit s, rfl, rfl⟩
  | _ => exact ⟨_, rfl, rfl, rfl⟩

/-- Every operation completes and keeps the invariant. -/
theorem applyOp_keeps_inv (op : HostOp) {s : State} (h : s.Inv) : ∃ t, applyOp op s = .next t ∧ t.Inv := by
  cases op with
  | reset => exact ⟨_, rfl, (resetState_inv s.font s.strict).congr rfl rfl rfl rfl rfl rfl⟩
  | cycle =>
    obtain ⟨t, hstep, -⟩ := exists_step s
    exact ⟨t, hstep, stepKeepsTheInvariant s t h hstep⟩
  | loadProgram bytes =>
    by_cases hfit : bytes.length ≤ 3584
    · exact ⟨_, applyOp_loadProgram_of_fits hfit s, h.setMem (Memory.wf_writeMany h.memCanonical (program_in_memory hfit))⟩
    · exact ⟨_, applyOp_loadProgram_of_too_long hfit s, h.faulted (by decide) _ _⟩
  | tickTimers | setKey | clearDirty => exact ⟨_, rfl, h.congr rfl rfl rfl rfl rfl rfl⟩

/-- What a halted machine may still change before its next reset (R176, R177). -/
def partsFreeWhileHalted : List Part := [.memory, .delayTimer, .soundTimer, .keys, .dirty, .faultState]

/-- From `s` to `t` the machine ends halted, with `PC` and all but the free pieces of state as they were. -/
def StaysHalted (s t : State) : Prop := t.halt = true ∧ t.pc = s.pc ∧ OnlyChanges partsFreeWhileHalted [] s t

theorem StaysHalted.trans {s t u : State} (h : StaysHalted s t) (h' : StaysHalted t u) : StaysHalted s u := by
  obtain ⟨-, hpc, hframe⟩ := h
  obtain ⟨hhalt', hpc', hframe'⟩ := h'
  exact ⟨hhalt', hpc'.trans hpc, hframe.trans hframe'⟩

/-- On a halted machine every operation but reset leaves the halt, `PC` and all but the free pieces of state. -/
theorem applyOp_of_halted {op : HostOp} {s : State} (hhalt : s.halt = true) (hop : op ≠ .reset) :
    ∃ t, applyOp op s = .next t ∧ StaysHalted s t := by
  cases op with
  | reset => exact absurd rfl hop
  | cycle => exact ⟨s, step_of_halt hhalt, hhalt, rfl, OnlyChanges.refl _ _ s⟩
  | loadProgram bytes =>
    by_cases hfit : bytes.length ≤ 3584
    · exact ⟨_, applyOp_loadProgram_of_fits hfit s, hhalt, rfl,
        (s.setMem_onlyChanges _).mono (by decide) (List.Subset.refl _)⟩
    · exact ⟨_, applyOp_loadProgram_of_too_long hfit s, rfl, rfl,
        (s.faulted_onlyChanges _ _ _).mono (by decide) (List.Subset.refl _)⟩
  | tickTimers => exact ⟨_, rfl, hhalt, rfl, (tickTimers_onlyChanges s).mono (by decide) (List.Subset.refl _)⟩
  | setKey k b => exact ⟨_, rfl, hhalt, rfl, (setKey_onlyChanges k b s).mono (by decide) (List.Subset.refl _)⟩
  | clearDirty => exact ⟨_, rfl, hhalt, rfl, (clearDirty_onlyChanges s).mono (by decide) (List.Subset.refl _)⟩

/-! ### The parked machine -/

/-- A cycle that runs an instruction and neither halts nor begins a wait reports Ok. -/
theorem outcomeOf_of_instr {s t : State} {i : Instr} (hfetch : s.Fetches) (hword : decode s.wordAtPc = .instr i)
    (hhalt : t.halt = false) (hwait : t.wait = false) : outcomeOf s t = .ok := by
  obtain ⟨hhalt', hwait', hpc⟩ := hfetch
  simp only [outcomeOf, hhalt, hwait, hhalt', hwait', Bool.false_eq_true, if_false, fetchWord_eq, if_pos hpc, hword]

/-! ### The obligations -/

/-- Settles O55: each operation completes and keeps the invariant, so a run of them does. -/
theorem runsKeepTheInvariant : Obligations.RunsKeepTheInvariant := fun _ _ hinv =>
  exists_runOps (fun op _ _ h => applyOp_keeps_inv op h) hinv

/-- Settles O51: each operation completes and keeps the configuration, so a run of them does. -/
theorem configurationIsConstant : Obligations.ConfigurationIsConstant := by
  intro ops s
  refine exists_runOps (P := fun t => t.strict = s.strict ∧ t.font = s.font) (fun op _ u hu => ?_) ⟨rfl, rfl⟩
  obtain ⟨hstrict, hfont⟩ := hu
  obtain ⟨t, happly, hstrict', hfont'⟩ := applyOp_keeps_config op u
  exact ⟨t, happly, hstrict'.trans hstrict, hfont'.trans hfont⟩

/-- Settles O52: no operation of the run is the one that leaves the halt. -/
theorem onlyResetLeavesTheHalt : Obligations.OnlyResetLeavesTheHalt := by
  intro ops s t hhalt hreset hrun
  have hop : ∀ op ∈ ops, ∀ u, StaysHalted s u → ∃ w, applyOp op u = .next w ∧ StaysHalted s w := by
    intro op hmem u hu
    obtain ⟨w, happly, hw⟩ := applyOp_of_halted hu.1 fun h => hreset (h ▸ hmem)
    exact ⟨w, happly, hu.trans hw⟩
  obtain ⟨t', hrun', hhalt', hpc', hparts, hregs⟩ := exists_runOps hop ⟨hhalt, rfl, OnlyChanges.refl _ _ s⟩
  obtain rfl : t' = t := Host.Outcome.next.inj (hrun'.symm.trans hrun)
  exact ⟨hhalt', hpc', hparts, fun r => hregs r List.not_mem_nil⟩

/-- Settles O53: the jump's target is `PC` itself, and ticks, keys and `DIRTY` take no part in being parked. -/
theorem parkedMachineStaysParked : Obligations.ParkedMachineStaysParked := by
  intro s hparked
  have ⟨hfetch, nnn, htarget, hword⟩ := hparked
  have ⟨hhalt, hwait, _⟩ := hfetch
  have hdecode : decode s.wordAtPc = .instr (.jp nnn) := by rw [hword]; exact decodeOfEncode (.jp nnn)
  have hself : addrImm nnn = s.pc := BitVec.eq_of_toNat_eq ((toNat_addrImm nnn).trans htarget)
  have hstep : step s = .next s := by
    rw [stepRunsTheDecodedInstruction s _ hfetch hdecode, exec_jp_eq, hself]; rfl
  exact ⟨hstep, (cycleOutcome_of_step hstep).trans (congrArg some (outcomeOf_of_instr hfetch hdecode hhalt hwait)), hparked, hparked,
    fun _ _ => hparked⟩

end Sys2Proof.Machine
end
